-- ==== Sys2Proof/Word.lean ====
section
/-! DEFINITION. The word types of the z80cpp HAL block (spec/00_scope.md rules R5, R7 and R8): every
value of the block is unsigned and bit 0 is its least significant bit. -/

namespace Sys2Proof

/-- A byte: the width of every memory access, of an AttributeByte and of a PortByte (`DATA_W`, R5, R32). -/
abbrev Byte := BitVec 8

/-- An Address, "an unsigned 16-bit integer" (`ADDR_W`, R5, R8, R30). -/
abbrev Address := BitVec 16

/-- A cell coordinate, unsigned 8-bit (`COORD_W`, R5, R8): valid columns are 0 .. 31, valid rows 0 .. 23. -/
abbrev Coord := BitVec 8

/-- A Color in a 3-bit field (`COLOR_W`, R5, R51): all eight patterns are Colors. -/
abbrev Color := BitVec 3

/-- The 32-bit request word `W` (R56). -/
abbrev Word := BitVec 32

/-- The 24-bit response word `R` (R58). -/
abbrev ResponseWord := BitVec 24

/-- BLACK = 0 (R8, R51). -/
def Color.black : Color := 0
/-- BLUE = 1 (R8, R51). -/
def Color.blue : Color := 1
/-- RED = 2 (R8, R51). -/
def Color.red : Color := 2
/-- MAGENTA = 3 (R8, R51). -/
def Color.magenta : Color := 3
/-- GREEN = 4 (R8, R51). -/
def Color.green : Color := 4
/-- CYAN = 5 (R8, R51). -/
def Color.cyan : Color := 5
/-- YELLOW = 6 (R8, R51). -/
def Color.yellow : Color := 6
/-- WHITE = 7 (R8, R51). -/
def Color.white : Color := 7

end Sys2Proof
end

