-- ==== Sys2Proof/Config.lean ====
section
/-! DEFINITION. What is fixed for one machine: the configuration record of spec/00_scope.md rule R5 and
the free values the spec leaves open ("any value": R23, R36; the external agent's writes: R44). -/

namespace Sys2Proof

/-- The addresses `first` .. `last`, both included; empty when `last < first`. -/
structure AddrRange where
  first : Nat
  last : Nat
  deriving DecidableEq, Repr

/-- The record `cfg` of R5, with the two address sets `ValidAddr` (R34, D11) and `ExtMutable` (R44, D12)
as lists of ranges, which can name any set of addresses. Nothing in the machine writes it (R20, R22). -/
structure Config where
  /-- `cfg.ColorTableBase`: address of cell (0,0) (R5, D10). -/
  colorTableBase : Address
  /-- `cfg.BorderAddr`: address of the border register, OPEN (R18, D9). -/
  borderAddr : Address
  /-- `cfg.InputPortAddr`: address of the input port, OPEN (R19, D9). -/
  inputPortAddr : Address
  /-- `cfg.BorderResolved`: the border address has been supplied for the target hardware (R5, D9). -/
  borderResolved : Bool
  /-- `cfg.InputPortResolved`: the input-port address has been supplied (R5, D9). -/
  inputPortResolved : Bool
  /-- `ValidAddr`: the valid physical addresses, OPEN (R34, D11). -/
  validAddr : List AddrRange
  /-- `ExtMutable`: the addresses the external agent may write, OPEN (R44, D12). -/
  extMutable : List AddrRange
  deriving DecidableEq, Repr

/-- Every one of the 65536 addresses (R30). -/
def AddrRange.everywhere : List AddrRange := [⟨0, 65535⟩]

/-- The values the spec gives the parameters (R5): the table base 22528, the source's placeholders 100
and 0 with both flags false (D9), every address valid (D11), the external agent free to write
everywhere (D12, "safe default"). -/
def Config.spec : Config where
  colorTableBase := 22528
  borderAddr := 100
  inputPortAddr := 0
  borderResolved := false
  inputPortResolved := false
  validAddr := AddrRange.everywhere
  extMutable := AddrRange.everywhere

/-- One step `ExtWr(addr, value)` of the external agent (R44). -/
structure ExtWrite where
  addr : Address
  value : Byte
  deriving DecidableEq, Repr

/-- FREE VALUE: the byte a read returns where the spec says "any value" (R36: no write to the address
since reset; R92: an unresolved input port; R18: a read of the border register), applied to the draw
counter of the state (assumption 5, safe). It has no body: nothing can be proved of its value. -/
opaque Config.freeByte : Nat → Byte

/-- FREE VALUE: the writes the external agent makes before a step of the requester, applied to the draw
counter of the state: "any number of steps", "The values are free" (R44; assumption 6, safe). -/
opaque Config.extBatch : Nat → List ExtWrite

end Sys2Proof
end

