-- ==== Sys2Proof/Mnemonic.lean ====
section
/-! DEFINITION. The names of the nine operations (spec/00_scope.md rule R4), in the order of the
operation select of spec/30_encoding.md rule R57. They name rows of the opcode table and head the text
form of rule R62; they are no instructions (those are `Instr`). -/

namespace Sys2Proof

/-- The nine rows of the opcode table (R4, R57). -/
inductive Mnemonic where
  | REG_READ
  | REG_WRITE
  | ATTR_ENCODE
  | ATTR_DECODE
  | PORT_DECODE
  | PORT_POLL
  | CELL_ADDRESS
  | SET_CELL_COLOR
  | SET_BORDER
  deriving DecidableEq, Repr

/-- All nine, in table order (R57). -/
def Mnemonic.all : List Mnemonic :=
  [.REG_READ, .REG_WRITE, .ATTR_ENCODE, .ATTR_DECODE, .PORT_DECODE, .PORT_POLL, .CELL_ADDRESS,
   .SET_CELL_COLOR, .SET_BORDER]

end Sys2Proof
end

