-- ==== Sys2Proof/Machine/Program.lean ====
section
/-! DEFINITION. What a requester can issue, one item per position of its operation list
(spec/10_state.md rule R15): a request word (spec/30_encoding.md rule R56), an operation in text form
(R62), a pseudo-operation of the reference caller (R63), or the caller's unconditional return (R120).
The list is held outside `mem` (R47, R157, D22). -/

namespace Sys2Proof.Machine

/-- An operand of the text form (R62). Decimal, `0x` and `0b` spell the same number. -/
inductive Operand where
  | number (n : Nat)
  /-- "a Color may be written by name". -/
  | color (c : Color)
  /-- "a bool as `true`/`false`". -/
  | bool (b : Bool)
  /-- a name that an earlier `-> name` bound. -/
  | name (id : String)
  deriving DecidableEq, Repr

/-- One line of the text form, `MNEMONIC operands -> name` (R62); operands in the source's order. -/
structure Call where
  op : Mnemonic
  args : List Operand
  bind : Option String
  deriving DecidableEq, Repr

/-- One item of the requester's list. -/
inductive Request where
  /-- a 32-bit request word handed to the block (R56). -/
  | word (w : Word)
  /-- an operation in text form (R62). -/
  | call (c : Call)
  /-- the pseudo-operation `ENTITY_DRAW i` (R63, R117). DESIGN CHOICE (assumption 23, safe): the index is
  a literal number, never a name bound by `-> name`. -/
  | entityDraw (i : Nat)
  /-- the pseudo-operation `DRIVER_ITERATION` (R63, R119). -/
  | driverIteration
  /-- `pc <- target`, "used only by the reference caller's loop" (R7, R120). -/
  | goto (target : Nat)
  deriving DecidableEq, Repr

end Sys2Proof.Machine
end

