-- ==== Sys2Proof/Machine/State.lean ====
section
/-! DEFINITION. The state of the machine as plain data: the platform's address space and the model's
`trace` and `viol` (spec/10_state.md rules R16, R21), the registers of the reference caller (R14), the
requester's list and position (R15), what the requester was answered (R58), the external agent (R44)
and the configuration the block was given (R5). The block itself holds no state (R10). -/

namespace Sys2Proof.Machine

/-- The address space (R16, R30): the bytes that have been written since reset, strictly rising by
address. An address that is not listed holds no known value (R23): a read of it is a free draw (D23).
`Memory.wf` (Machine/Ops.lean) states the form. -/
abbrev Memory := List Host.Cell

/-- An access event (R38). -/
inductive Event where
  /-- `Rd(addr, v)`: the block read `v` at `addr`. -/
  | rd (addr : Address) (v : Byte)
  /-- `Wr(addr, v)`: the block wrote `v` at `addr`. -/
  | wr (addr : Address) (v : Byte)
  /-- `ExtWr(addr, v)`: the external agent wrote `v` at `addr`. -/
  | extWr (addr : Address) (v : Byte)
  deriving DecidableEq, Repr

/-- A violation code with the value R134 records for it. -/
inductive Violation where
  /-- 1 `V_CELL`: SET_CELL_COLOR with `x >= 32` or `y >= 24`. -/
  | cell (x y : Coord)
  /-- 2 `V_COLOR`: ATTR_ENCODE or SET_BORDER with a Color operand outside 0 .. 7. -/
  | color (c : Nat)
  /-- 3 `V_ADDR`: an access at an address that is not valid. -/
  | addr (a : Address)
  /-- 4 `V_UNRESOLVED`: SET_BORDER or PORT_POLL before its address is resolved. -/
  | unresolved (a : Address)
  /-- 5 `V_ILLEGAL`: a request word that matches no row. -/
  | illegal (w : Word)
  /-- 6 `V_ENTITY`: DRIVER_ITERATION with `ent[0].y >= 24`. -/
  | entity (y : Coord)
  deriving DecidableEq, Repr

/-- The registers of one entity of the reference caller (R14). -/
structure Entity where
  /-- `ent[i].x`, the column. -/
  x : Coord
  /-- `ent[i].y`, the row. -/
  y : Coord
  /-- `ent[i].attr`, immutable after creation. -/
  attr : Byte
  deriving DecidableEq, Repr

/-- The four fields of an AttributeByte (R17, R50), in the order of ATTR_DECODE's tuple (R62). -/
structure AttrFields where
  ink : Color
  paper : Color
  bright : Bool
  flash : Bool
  deriving DecidableEq, Repr

/-- The five signals of a PortByte (R52, R90). -/
structure Signals where
  right : Bool
  left : Bool
  down : Bool
  up : Bool
  fire : Bool
  deriving DecidableEq, Repr

/-- What an operation returns to the requester, by the response formats of R58. -/
inductive Response where
  /-- `byte`: REG_READ, PORT_POLL, ATTR_ENCODE. -/
  | byte (b : Byte)
  /-- `fields`: ATTR_DECODE. -/
  | fields (f : AttrFields)
  /-- `signals`: PORT_DECODE. -/
  | signals (g : Signals)
  /-- `address`: CELL_ADDRESS. -/
  | address (a : Address)
  /-- `none`: REG_WRITE, SET_CELL_COLOR, SET_BORDER; "the write has been done". -/
  | done
  deriving DecidableEq, Repr

/-- The block's answer to a request: the response word and the bit `illegal` (R58, R59). -/
structure Answer where
  illegal : Bool
  r : ResponseWord
  deriving DecidableEq, Repr

/-- The external agent (R31, R44): what it does before each step of the requester. -/
inductive ExtAgent where
  /-- nothing constrains it: its writes are the free value `Config.extBatch`. -/
  | free
  /-- played by the host (R159): the writes before the next step, before the one after, and so on;
  none once the script is used up. -/
  | scripted (turns : List (List ExtWrite))
  deriving DecidableEq, Repr

/-- Everything the spec gives the machine. -/
structure State where
  /-- the configuration, constant during a run (R5, R20, R22). -/
  cfg : Config
  /-- `mem` (R16, R30). -/
  mem : Memory
  /-- `trace`, oldest event first (R21, R38). -/
  trace : List Event
  /-- `viol`, the set of violations so far, without repeats, in the order they were first added; never
  cleared (R21, R133). -/
  viol : List Violation
  /-- the entity registers `ent[0]`, `ent[1]`, ... (R14, R115). -/
  ents : List Entity
  /-- the requester's operation list (R15, R22). -/
  program : List Request
  /-- `pc`, the position of the next item of the list (R15). -/
  pc : Nat
  /-- inside a DRIVER_ITERATION: the entity to draw next (R119); none between items. -/
  drawing : Option Nat
  /-- the responses of the completed operations, oldest first (R58). -/
  responses : List Response
  /-- the names `-> name` has bound, newest first (R62). -/
  names : List (String × Nat)
  /-- the external agent (R44). -/
  agent : ExtAgent
  /-- the model's own counter of free values drawn so far (assumption 5). -/
  draws : Nat
  deriving DecidableEq, Repr

/-- Faults: none. "No operation of the block raises an exception, sets a fault bit, returns an error
code or refuses to complete" (R130), and no case of the spec is treated as a fault or as stuck
(spec/93_implementation_defined.md). The type is empty, so no step can end in a fault. -/
inductive Fault where
  deriving DecidableEq, Repr

/-- Refusals: the cases of R134 that the spec treats as "refuse" (the model "marks, makes no access, and
gives the rest of the run no meaning"), and requester lists that spell no operation. All are safe. -/
inductive Refusal where
  /-- an instruction without a meaning yet; raised by an arm of `exec` only. Safe. -/
  | notModelled (mnemonic : String)
  /-- a refuse code of R134 applies (`V_COLOR`: execAttrEncode, execSetBorder; `V_ADDR`: every accessing
  operation; `V_ENTITY`: DRIVER_ITERATION). `marks` is `viol` with all the causes of this step added
  (R135). No access is made. Safe. -/
  | violated (marks : List Violation)
  /-- `V_ILLEGAL`: a request word that matches no row (R59); raised by the requester's step. The block's
  answer is `illegal` = 1, `R` = 0. Safe. -/
  | illegalRequest (answer : Answer) (marks : List Violation)
  /-- a line in text form that spells no operation: a wrong number of operands, a value wider than its
  port, or a name nothing has bound; raised by the requester's step (assumption 9). Safe. -/
  | malformedCall
  /-- ENTITY_DRAW or DRIVER_ITERATION of an entity that does not exist (assumption 10). Safe. -/
  | noEntity (i : Nat)
  deriving DecidableEq, Repr

/-- The machine right after reset (R23, R150): `trace` and `viol` empty, `pc` 0, every byte of `mem`
unspecified (nothing listed), the entities of the default start state (R116, D16), `cfg` with the
values of R5, no operation list handed over yet (assumption 8), the external agent free (R44). -/
def State.reset : State where
  cfg := Config.spec
  mem := []
  trace := []
  viol := []
  ents := [⟨2, 12, 32⟩, ⟨30, 12, 16⟩]
  program := []
  pc := 0
  drawing := none
  responses := []
  names := []
  agent := .free
  draws := 0

end Sys2Proof.Machine
end

