-- ==== Sys2Proof/Machine/Ops.lean ====
section
/-! DEFINITION. The named operations over the state: the address sets, memory, the two access primitives
`MemRead` and `MemWrite` (spec/20_memory.md rules R36, R37), responses, and the chaining of outcomes.
Taking an exception has no operation here: the block raises none, saves nothing and returns from
nothing (spec/60_exceptions.md rules R130 to R132). -/

namespace Sys2Proof.Machine

/-- Membership of an address in a set of ranges. -/
def inRanges (rs : List AddrRange) (a : Address) : Bool :=
  rs.any fun r => decide (r.first ≤ a.toNat) && decide (a.toNat ≤ r.last)

/-- `ValidAddr(a)` (R34). -/
def validAddr (cfg : Config) (a : Address) : Bool := inRanges cfg.validAddr a

/-- `a` is in `ExtMutable` (R44). -/
def extMutable (cfg : Config) (a : Address) : Bool := inRanges cfg.extMutable a

/-- The byte at an address; none where nothing has been written since reset (R23). -/
def Memory.read : Memory → Address → Option Byte
  | [], _ => none
  | (k, v) :: m, a => if k = a.toNat then some v else Memory.read m a

/-- Set one byte, keeping the addresses strictly rising: "changes no other byte" (R37). -/
def Memory.write : Memory → Address → Byte → Memory
  | [], a, v => [(a.toNat, v)]
  | (k, w) :: m, a, v =>
      if a.toNat < k then (a.toNat, v) :: (k, w) :: m
      else if a.toNat = k then (k, v) :: m
      else (k, w) :: Memory.write m a v

/-- The canonical form: addresses strictly rising and inside the 65536 locations of R30. An unlisted
address reads as no known value, so no entry can repeat it. -/
abbrev Memory.wf (m : Memory) : Prop :=
  List.Pairwise (fun c d : Host.Cell => c.1 < d.1) m ∧ ∀ c ∈ m, c.1 < 65536

/-- What a read at `a` is bound to return: the latest write by either agent (R36), or none where the
spec says "any value": nothing written since reset (R23, D23), or the border register, unless the
platform says it reads back by keeping it out of `ExtMutable` (R18, R71 corner case 5, D24). -/
def State.known (s : State) (a : Address) : Option Byte :=
  if a = s.cfg.borderAddr ∧ extMutable s.cfg a = true then none else Memory.read s.mem a

/-- The byte a read at `a` returns at this moment (R36). -/
def State.readValue (s : State) (a : Address) : Byte :=
  (s.known a).getD (Config.freeByte s.draws)

/-- `MemRead` of R36, once the byte `v` it returns is known: the event `Rd(a, v)`; `mem` unchanged. -/
def State.recordRead (s : State) (a : Address) (v : Byte) : State :=
  { s with trace := s.trace ++ [.rd a v], draws := s.draws + 1 }

/-- `MemWrite(a, 1, v)` of R37 at a valid address. -/
def State.memWrite (s : State) (a : Address) (v : Byte) : State :=
  { s with mem := Memory.write s.mem a v, trace := s.trace ++ [.wr a v] }

/-- `result <- v`: the response of a completed operation (R7, R58). -/
def State.respond (s : State) (r : Response) : State :=
  { s with responses := s.responses ++ [r] }

/-- "every operation advances it by 1" (R15). -/
def State.advance (s : State) : State := { s with pc := s.pc + 1 }

/-- Go on with `f` from a next state; a fault or a refusal stays. -/
def andThen (o : Host.Outcome State Fault Refusal) (f : State → Host.Outcome State Fault Refusal) :
    Host.Outcome State Fault Refusal :=
  match o with
  | .next t => f t
  | .fault r => .fault r
  | .refused r => .refused r

/-- A start state the host sets up before a run (R152, R159): a configuration, the entities, the
requester's list and the external agent; everything else as after reset. -/
def State.start (cfg : Config) (ents : List Entity) (program : List Request) (agent : ExtAgent) : State :=
  { State.reset with cfg := cfg, ents := ents, program := program, agent := agent }

end Sys2Proof.Machine
end

