-- ==== Sys2Proof/Machine/External.lean ====
section
/-! DEFINITION. The external agent's steps between two steps of the requester (spec/20_memory.md rules R31,
R43 and R44): each `ExtWr(a, v)` with `a` in `ExtMutable` sets `mem[a] <- v` and appends its event. -/

namespace Sys2Proof.Machine

/-- The writes the agent attempts before the next step of the requester. -/
def State.extAttempts (s : State) : List ExtWrite :=
  match s.agent with
  | .free => Config.extBatch s.draws
  | .scripted (turn :: _) => turn
  | .scripted [] => []

/-- The writes it makes: only those at addresses of `ExtMutable` (R44). -/
def State.extWrites (s : State) : List ExtWrite :=
  s.extAttempts.filter fun e => extMutable s.cfg e.addr

/-- `mem` after a list of writes of the agent, first to last. -/
def applyExt : Memory → List ExtWrite → Memory
  | m, [] => m
  | m, e :: es => applyExt (Memory.write m e.addr e.value) es

/-- What is left of the agent's script after its turn. -/
def ExtAgent.rest : ExtAgent → ExtAgent
  | .free => .free
  | .scripted turns => .scripted turns.tail

/-- The external agent's turn (R44). Only `mem`, `trace`, the script and the draw counter change. -/
def State.externalTurn (s : State) : State :=
  { s with
    mem := applyExt s.mem s.extWrites
    trace := s.trace ++ s.extWrites.map fun e => .extWr e.addr e.value
    agent := s.agent.rest
    draws := s.draws + 1 }

end Sys2Proof.Machine
end

