-- ==== Sys2Proof/Syntax.lean ====
section
/-! DEFINITION. The nine operations of the block as terms (spec/00_scope.md rule R4; operands and their
order: spec/30_encoding.md rule R62). -/

namespace Sys2Proof

/-- One operation of the block with its operands, one constructor per row of spec/opcode_table.json.
Operands have the port widths of decision D5, except that a Color operand is a natural number: a term
can then spell the source's out-of-range Color, which the meaning refuses with `V_COLOR` as rule R83
asks of "a model whose Color type is wider". `WellFormed` says which terms the 3-bit ports can carry.
DESIGN CHOICE (assumption 3, safe). -/
inductive Instr where
  /-- `REG_READ addr` (R71). -/
  | regRead (addr : Address)
  /-- `REG_WRITE addr, data` (R72). -/
  | regWrite (addr : Address) (data : Byte)
  /-- `ATTR_ENCODE ink, paper, bright, flash` (R81). -/
  | attrEncode (ink paper : Nat) (bright flash : Bool)
  /-- `ATTR_DECODE byte` (R82). -/
  | attrDecode (byte : Byte)
  /-- `PORT_DECODE byte` (R91). -/
  | portDecode (byte : Byte)
  /-- `PORT_POLL` (R92). -/
  | portPoll
  /-- `CELL_ADDRESS x, y` (R101). -/
  | cellAddress (x y : Coord)
  /-- `SET_CELL_COLOR x, y, attr` (R102). -/
  | setCellColor (x y : Coord) (attr : Byte)
  /-- `SET_BORDER color` (R103). -/
  | setBorder (color : Nat)
  deriving DecidableEq, Repr

/-- The mnemonic of an operation (R4). -/
def Instr.mnemonic : Instr → Mnemonic
  | .regRead _ => .REG_READ
  | .regWrite _ _ => .REG_WRITE
  | .attrEncode _ _ _ _ => .ATTR_ENCODE
  | .attrDecode _ => .ATTR_DECODE
  | .portDecode _ => .PORT_DECODE
  | .portPoll => .PORT_POLL
  | .cellAddress _ _ => .CELL_ADDRESS
  | .setCellColor _ _ _ => .SET_CELL_COLOR
  | .setBorder _ => .SET_BORDER

end Sys2Proof
end

