-- ==== Sys2Proof/WellFormed.lean ====
section
/-! DEFINITION. Which terms of `Instr` the ports of the block can carry: a Color is one of eight values,
"No other values are valid" (spec/00_scope.md rule R8, spec/30_encoding.md rules R51 and R60). Every
other operand type is exactly as wide as its port, so it needs no check. -/

namespace Sys2Proof

/-- A Color operand is in the closed range 0 .. 7 (R8). -/
def colorInRange (c : Nat) : Bool := decide (c ≤ 7)

/-- Every Color operand is a Color (R8, R83, R103). -/
def Instr.wellFormed : Instr → Bool
  | .regRead _ => true
  | .regWrite _ _ => true
  | .attrEncode ink paper _ _ => colorInRange ink && colorInRange paper
  | .attrDecode _ => true
  | .portDecode _ => true
  | .portPoll => true
  | .cellAddress _ _ => true
  | .setCellColor _ _ _ => true
  | .setBorder color => colorInRange color

/-- The operation can be presented to the block (D5). -/
abbrev Instr.WellFormed (i : Instr) : Prop := i.wellFormed = true

end Sys2Proof
end

