-- ==== Sys2Proof/Decode.lean ====
section
/-! DEFINITION. The request decoder of spec/30_encoding.md rules R56, R57, R59 and R61, and after it the
encoder. A word selects a row when `W AND mask = match`; the row's format says where the operands lie. -/

namespace Sys2Proof

/-- The column `mask` of R57. -/
def Mnemonic.mask : Mnemonic → Word
  | .REG_READ => 0xFF0000FF
  | .REG_WRITE => 0xFF000000
  | .ATTR_ENCODE => 0xFFFCF8F8
  | .ATTR_DECODE => 0xFFFFFF00
  | .PORT_DECODE => 0xFFFFFF00
  | .PORT_POLL => 0xFFFFFFFF
  | .CELL_ADDRESS => 0xFF0000FF
  | .SET_CELL_COLOR => 0xFF000000
  | .SET_BORDER => 0xFFFFFFF8

/-- The column `match` of R57. -/
def Mnemonic.pattern : Mnemonic → Word
  | .REG_READ => 0x10000000
  | .REG_WRITE => 0x20000000
  | .ATTR_ENCODE => 0x30000000
  | .ATTR_DECODE => 0x40000000
  | .PORT_DECODE => 0x50000000
  | .PORT_POLL => 0x60000000
  | .CELL_ADDRESS => 0x70000000
  | .SET_CELL_COLOR => 0x80000000
  | .SET_BORDER => 0x90000000

/-- "a word `W` selects the row when `W AND mask = match`" (R57). -/
def Mnemonic.selects (m : Mnemonic) (w : Word) : Bool := w &&& m.mask == m.pattern

/-- The field `arg[lo + n - 1 : lo]` of a request word. -/
def argField (lo n : Nat) (w : Word) : BitVec n := w.extractLsb' lo n

/-- Cut the operands of a row out of the word: the formats A, AD, F, B, N, XY, XYA and K of R56. -/
def Mnemonic.operation (w : Word) : Mnemonic → Instr
  | .REG_READ => .regRead (argField 8 16 w)
  | .REG_WRITE => .regWrite (argField 8 16 w) (argField 0 8 w)
  | .ATTR_ENCODE => .attrEncode (argField 0 3 w).toNat (argField 8 3 w).toNat (w.getLsbD 16) (w.getLsbD 17)
  | .ATTR_DECODE => .attrDecode (argField 0 8 w)
  | .PORT_DECODE => .portDecode (argField 0 8 w)
  | .PORT_POLL => .portPoll
  | .CELL_ADDRESS => .cellAddress (argField 16 8 w) (argField 8 8 w)
  | .SET_CELL_COLOR => .setCellColor (argField 16 8 w) (argField 8 8 w) (argField 0 8 w)
  | .SET_BORDER => .setBorder (argField 0 3 w).toNat

/-- Why a word is illegal (R59): "`op` is 0x0 or 0xA .. 0xF, or `rsv` is not 0, or a bit of `arg` outside
the operation's format is 1". -/
inductive Illegal where
  /-- `op` is 0x0 or 0xB .. 0xF: reserved. -/
  | reservedOp
  /-- `op` is 0xA: kept for `set_pixel`, illegal in this version (R59, R110). -/
  | setPixel
  /-- bits 27:24 are not 0. -/
  | reservedBits
  /-- a bit of `arg` outside the format of this row is 1. -/
  | argumentBits (m : Mnemonic)
  deriving DecidableEq, Repr

/-- The operation select, bits 31:28 (R56). -/
def opSelect (w : Word) : BitVec 4 := w.extractLsb' 28 4

/-- The row an `op` code names, whatever the other bits are (R57). -/
def Mnemonic.ofOp (op : BitVec 4) : Option Mnemonic :=
  Mnemonic.all.find? fun m => opSelect m.pattern == op

/-- The reason for which a word that selects no row is illegal (R59). -/
def illegalReason (w : Word) : Illegal :=
  match Mnemonic.ofOp (opSelect w) with
  | none => if opSelect w = 0xA then .setPixel else .reservedOp
  | some m => if w.extractLsb' 24 4 = (0 : BitVec 4) then .argumentBits m else .reservedBits

/-- The decoder: "reads `op`, picks the row of rule R57, checks the mask, and cuts the fields of rule
R56" (R61). Total; a word that selects no row is rejected by its reason. -/
def decode (w : Word) : Except Illegal Instr :=
  match Mnemonic.all.find? fun m => m.selects w with
  | some m => .ok (m.operation w)
  | none => .error (illegalReason w)

/-- A Color operand as the 3-bit port carries it; meaningful for a well-formed operand only. -/
def colorField (c : Nat) : Color := BitVec.ofNat 3 c

/-- A value placed in the bits of a request word from bit `lo` upwards. -/
def place {n : Nat} (lo : Nat) (v : BitVec n) : Word := v.setWidth 32 <<< lo

/-- The request word of an operation: the row's `match`, with the operands in the fields of its format
(R56, R57; the formula `W = ...` of R71, R72, R81, R82, R91, R92, R101, R102 and R103). Meaningful for a
well-formed operation only. -/
def encode : Instr → Word
  | .regRead addr => 0x10000000 ||| place 8 addr
  | .regWrite addr data => 0x20000000 ||| place 8 addr ||| place 0 data
  | .attrEncode ink paper bright flash =>
      0x30000000 ||| place 17 (BitVec.ofBool flash) ||| place 16 (BitVec.ofBool bright)
        ||| place 8 (colorField paper) ||| place 0 (colorField ink)
  | .attrDecode byte => 0x40000000 ||| place 0 byte
  | .portDecode byte => 0x50000000 ||| place 0 byte
  | .portPoll => 0x60000000
  | .cellAddress x y => 0x70000000 ||| place 16 x ||| place 8 y
  | .setCellColor x y attr => 0x80000000 ||| place 16 x ||| place 8 y ||| place 0 attr
  | .setBorder color => 0x90000000 ||| place 0 (colorField color)

/-- The instruction the decoder reads from a word given as a number of `nbits` bits (bit 0 the least
significant; the bits above `nbits` are 0). A request is one 32-bit word (R56, R61): none where the
decoder refuses, and none for a number that does not fit in 32 bits. -/
def decodeTableWord (nbits w : Nat) : Option Instr :=
  if w % 2 ^ nbits < 2 ^ 32 then
    match decode (BitVec.ofNat 32 (w % 2 ^ nbits)) with
    | .ok i => some i
    | .error _ => none
  else none

end Sys2Proof
end

