-- ==== Sys2Proof/Machine/Operands.lean ====
section
/-! DEFINITION. The pure functions of the block: the attribute byte (spec/41_color_attribute.md rules R81,
R82), the port byte (R91), the cell-to-address translator (R100, R101), the border byte (R53) and the
packing of responses (R58). -/

namespace Sys2Proof.Machine

/-- `ink + paper*8 + (bright ? 64 : 0) + (flash ? 128 : 0)` (R81), computed exactly and then narrowed to a
byte; for Colors in 0 .. 7 the narrowing never acts (R85). -/
def encodeAttr (ink paper : Nat) (bright flash : Bool) : Byte :=
  BitVec.ofNat 8 (ink + paper * 8 + (if bright then 64 else 0) + (if flash then 128 else 0))

/-- `ink = byte[2:0]`, `paper = byte[5:3]`, `bright = byte[6]`, `flash = byte[7]` (R82). -/
def decodeAttr (b : Byte) : AttrFields where
  ink := b.extractLsb' 0 3
  paper := b.extractLsb' 3 3
  bright := b.getLsbD 6
  flash := b.getLsbD 7

/-- Bits 4:0 of the byte as the five signals, "bit set ⇒ signal true"; bits 7:5 are not read (R91). -/
def decodePort (b : Byte) : Signals where
  right := b.getLsbD 0
  left := b.getLsbD 1
  down := b.getLsbD 2
  up := b.getLsbD 3
  fire := b.getLsbD 4

/-- `zext_16(x) + 32 * zext_16(y)`, never truncated to 8 bits (R101, R105). -/
def cellOffset (x y : Coord) : Nat := x.toNat + 32 * y.toNat

/-- `(cfg.ColorTableBase + offset) mod 2^16` (R101). -/
def cellAddr (cfg : Config) (x y : Coord) : Address :=
  BitVec.ofNat 16 (cfg.colorTableBase.toNat + cellOffset x y)

/-- `CellInRange(x, y)`: `x <= 31 and y <= 23` (R100). -/
def cellInRange (x y : Coord) : Bool := decide (x.toNat ≤ 31) && decide (y.toNat ≤ 23)

/-- The byte SET_BORDER writes, `zext_8(c)`: the Color in bits 2:0, zeros in bits 7:3 (R53). -/
def borderByte (c : Nat) : Byte := BitVec.ofNat 8 c

/-- A value placed in the bits of a response word from bit `lo` upwards. -/
def placeIn {n : Nat} (lo : Nat) (v : BitVec n) : ResponseWord := v.setWidth 24 <<< lo

/-- The 24-bit response word (R58). -/
def Response.pack : Response → ResponseWord
  | .byte b => placeIn 0 b
  | .fields f =>
      placeIn 17 (BitVec.ofBool f.flash) ||| placeIn 16 (BitVec.ofBool f.bright) ||| placeIn 8 f.paper
        ||| placeIn 0 f.ink
  | .signals g =>
      placeIn 0 (BitVec.ofBool g.right) ||| placeIn 1 (BitVec.ofBool g.left)
        ||| placeIn 2 (BitVec.ofBool g.down) ||| placeIn 3 (BitVec.ofBool g.up)
        ||| placeIn 4 (BitVec.ofBool g.fire)
  | .address a => placeIn 0 a
  | .done => 0

/-- The answer to a legal request: `illegal` = 0 and the packed response (R58). -/
def Response.answer (r : Response) : Answer := ⟨false, r.pack⟩

/-- The answer to an illegal word: `illegal` = 1, `R` = 0 (R59). -/
def illegalAnswer : Answer := ⟨true, 0⟩

end Sys2Proof.Machine
end

