-- ==== Sys2Proof/Machine/Flags.lean ====
section
/-! DEFINITION. The hardware has no flags and no condition codes (spec/10_state.md rule R12): no operation
writes any. "The one flag-like thing in a model is the set `viol`": this file holds the violations of
spec/60_exceptions.md rules R133 to R135, how they are marked and which of them refuse the run. -/

namespace Sys2Proof.Machine

/-- The code of a violation (R134). -/
def Violation.code : Violation → Nat
  | .cell _ _ => 1
  | .color _ => 2
  | .addr _ => 3
  | .unresolved _ => 4
  | .illegal _ => 5
  | .entity _ => 6

/-- The column `treatment` of R134: true for "refuse", false for "continue". -/
def Violation.refuses : Violation → Bool
  | .cell _ _ => false
  | .color _ => true
  | .addr _ => true
  | .unresolved _ => false
  | .illegal _ => true
  | .entity _ => true

/-- "`violate <Code>` adds `<Code>` to `viol`" (R133); a mark already there is not repeated. -/
def addMark (marks : List Violation) (v : Violation) : List Violation :=
  if v ∈ marks then marks else marks ++ [v]

/-- "All the causes that apply are added to `viol` in the same step" (R135). -/
def addMarks (marks : List Violation) : List Violation → List Violation
  | [] => marks
  | v :: vs => addMarks (addMark marks v) vs

/-- Mark the state with these causes; nothing else changes (R133). -/
def State.violate (s : State) (causes : List Violation) : State :=
  { s with viol := addMarks s.viol causes }

/-- The code `c` is in the set `viol` (R21). -/
def State.marked (s : State) (c : Nat) : Bool := s.viol.any fun v => v.code == c

/-- Mark all the causes; if any of them is a "refuse" code the access is not made and the run is
refused, otherwise go on from the marked state (R134, R135). -/
def checked (causes : List Violation) (k : State → Host.Outcome State Fault Refusal) (s : State) :
    Host.Outcome State Fault Refusal :=
  if causes.any Violation.refuses then .refused (.violated (s.violate causes).viol)
  else k (s.violate causes)

/-- `V_COLOR` for one Color operand (R83, R103). -/
def colorCause (c : Nat) : List Violation := if c ≤ 7 then [] else [.color c]

/-- `V_CELL` (R102, R104). -/
def cellCause (x y : Coord) : List Violation := if cellInRange x y then [] else [.cell x y]

/-- `V_UNRESOLVED` for an access at a configured address (R92, R103). -/
def unresolvedCause (resolved : Bool) (a : Address) : List Violation :=
  if resolved then [] else [.unresolved a]

/-- `V_ADDR` for an access at `a` (R34). -/
def addrCause (cfg : Config) (a : Address) : List Violation :=
  if validAddr cfg a then [] else [.addr a]

/-- `V_ENTITY` for a DRIVER_ITERATION that finds `ent[0].y = y` (R118). -/
def entityCause (y : Coord) : List Violation := if y.toNat < 24 then [] else [.entity y]

end Sys2Proof.Machine
end

