-- ==== Sys2Proof/Machine/ColorAttribute.lean ====
section
/-! DEFINITION. ColorAttribute (spec/41_color_attribute.md): ATTR_ENCODE and ATTR_DECODE. Both are pure: no
access, no event (R80). -/

namespace Sys2Proof.Machine

/-- ATTR_ENCODE (R81); a Color operand outside 0 .. 7 is refused with `V_COLOR`, never masked (R83). -/
def execAttrEncode (ink paper : Nat) (bright flash : Bool) (s : State) :
    Host.Outcome State Fault Refusal :=
  checked (colorCause ink ++ colorCause paper)
    (fun t => .next (t.respond (.byte (encodeAttr ink paper bright flash)))) s

/-- ATTR_DECODE (R82): total on all 256 bytes. -/
def execAttrDecode (byte : Byte) (s : State) : Host.Outcome State Fault Refusal :=
  .next (s.respond (.fields (decodeAttr byte)))

end Sys2Proof.Machine
end

