-- ==== Sys2Proof/Machine/DisplayInterface.lean ====
section
/-! DEFINITION. DisplayInterface (spec/43_display_interface.md): CELL_ADDRESS, SET_CELL_COLOR and
SET_BORDER. -/

namespace Sys2Proof.Machine

/-- CELL_ADDRESS (R101): pure, total, marks nothing. -/
def execCellAddress (x y : Coord) (s : State) : Host.Outcome State Fault Refusal :=
  .next (s.respond (.address (cellAddr s.cfg x y)))

/-- SET_CELL_COLOR (R102): out of range the write still lands at the formula address and the run is
marked with `V_CELL` (R104, conflict C3). -/
def execSetCellColor (x y : Coord) (attr : Byte) (s : State) : Host.Outcome State Fault Refusal :=
  checked (cellCause x y ++ addrCause s.cfg (cellAddr s.cfg x y))
    (fun t => .next ((t.memWrite (cellAddr t.cfg x y) attr).respond .done)) s

/-- SET_BORDER (R103): `MemWrite(cfg.BorderAddr, 1, zext_8(c))`. -/
def execSetBorder (color : Nat) (s : State) : Host.Outcome State Fault Refusal :=
  checked
    (colorCause color ++ unresolvedCause s.cfg.borderResolved s.cfg.borderAddr
      ++ addrCause s.cfg s.cfg.borderAddr)
    (fun t => .next ((t.memWrite t.cfg.borderAddr (borderByte color)).respond .done)) s

end Sys2Proof.Machine
end

