-- ==== Sys2Proof/Machine/InputPort.lean ====
section
/-! DEFINITION. InputPort (spec/42_input_port.md): PORT_DECODE and PORT_POLL. -/

namespace Sys2Proof.Machine

/-- PORT_DECODE (R91): pure, total on all 256 bytes. -/
def execPortDecode (byte : Byte) (s : State) : Host.Outcome State Fault Refusal :=
  .next (s.respond (.signals (decodePort byte)))

/-- The byte a poll returns: what the configured address holds, or, while that address is unresolved,
any value (R92, R134 row 4, D9). -/
def pollValue (s : State) : Byte :=
  if s.cfg.inputPortResolved then s.readValue s.cfg.inputPortAddr else Config.freeByte s.draws

/-- PORT_POLL (R92): `result <- MemRead(cfg.InputPortAddr, 1)`. -/
def execPortPoll (s : State) : Host.Outcome State Fault Refusal :=
  checked
    (unresolvedCause s.cfg.inputPortResolved s.cfg.inputPortAddr ++ addrCause s.cfg s.cfg.inputPortAddr)
    (fun t => .next ((t.recordRead t.cfg.inputPortAddr (pollValue t)).respond (.byte (pollValue t)))) s

end Sys2Proof.Machine
end

