-- ==== Sys2Proof/Machine/RegisterAccess.lean ====
section
/-! DEFINITION. RegisterAccess (spec/40_register_access.md): REG_READ and REG_WRITE. The handle of rule R70
is the operand `addr`; making one does nothing. -/

namespace Sys2Proof.Machine

/-- REG_READ (R71): `result <- MemRead(addr, 1)`. -/
def execRegRead (addr : Address) (s : State) : Host.Outcome State Fault Refusal :=
  checked (addrCause s.cfg addr)
    (fun t => .next ((t.recordRead addr (t.readValue addr)).respond (.byte (t.readValue addr)))) s

/-- REG_WRITE (R72): `MemWrite(addr, 1, data)`. -/
def execRegWrite (addr : Address) (data : Byte) (s : State) : Host.Outcome State Fault Refusal :=
  checked (addrCause s.cfg addr) (fun t => .next ((t.memWrite addr data).respond .done)) s

end Sys2Proof.Machine
end

