-- ==== Sys2Proof/Machine/Dispatch.lean ====
section
/-! DEFINITION. The nine operations (spec/00_scope.md rule R4), each with its meaning. -/

namespace Sys2Proof.Machine

/-- What one operation of the block does. -/
def exec (i : Instr) (s : State) : Host.Outcome State Fault Refusal :=
  match i with
  | .regRead addr => Sys2Proof.Machine.execRegRead addr s
  | .regWrite addr data => Sys2Proof.Machine.execRegWrite addr data s
  | .attrEncode ink paper bright flash => Sys2Proof.Machine.execAttrEncode ink paper bright flash s
  | .attrDecode byte => Sys2Proof.Machine.execAttrDecode byte s
  | .portDecode byte => Sys2Proof.Machine.execPortDecode byte s
  | .portPoll => Sys2Proof.Machine.execPortPoll s
  | .cellAddress x y => Sys2Proof.Machine.execCellAddress x y s
  | .setCellColor x y attr => Sys2Proof.Machine.execSetCellColor x y attr s
  | .setBorder color => Sys2Proof.Machine.execSetBorder color s

end Sys2Proof.Machine
end

