-- ==== Sys2Proof/Machine/TextForm.lean ====
section
/-! DEFINITION. The text form of operations (spec/30_encoding.md rule R62): operands in the source's
argument order, and names bound by `-> name`. -/

namespace Sys2Proof.Machine

/-- The value of an operand: the number itself, a Color's number, 1 or 0 for a bool, or what the name was
last bound to (R62). DESIGN CHOICE (assumption 22, unsafe): a Color name and `true` or `false` stand for
their number in every operand position, also where the operand is no Color or no bool. -/
def Operand.value (names : List (String × Nat)) : Operand → Option Nat
  | .number n => some n
  | .color c => some c.toNat
  | .bool b => some b.toNat
  | .name id => names.lookup id

/-- The values of all operands, in order; none if a name is unbound. -/
def operandValues (names : List (String × Nat)) : List Operand → Option (List Nat)
  | [] => some []
  | o :: os =>
      match o.value names, operandValues names os with
      | some v, some vs => some (v :: vs)
      | _, _ => none

/-- A number as an `n`-bit port value; none if it does not fit (D5). -/
def portValue (n v : Nat) : Option (BitVec n) := if v < 2 ^ n then some (BitVec.ofNat n v) else none

/-- A bool operand is written 1 or 0 (R62). -/
def boolValue (v : Nat) : Option Bool := if v ≤ 1 then some (v == 1) else none

/-- The operation a mnemonic and its operand values spell (R62); none for a wrong number of operands or
a value wider than its port. A Color operand is any number here: the operation itself refuses one
outside 0 .. 7 (R83). DESIGN CHOICE (assumption 22, unsafe): the values come without their spelling, so
`REG_WRITE 100, RED` is `REG_WRITE 100, 2`. -/
def assemble : Mnemonic → List Nat → Option Instr
  | .REG_READ, [a] => (portValue 16 a).map .regRead
  | .REG_WRITE, [a, d] =>
      match portValue 16 a, portValue 8 d with
      | some a, some d => some (.regWrite a d)
      | _, _ => none
  | .ATTR_ENCODE, [ink, paper, bright, flash] =>
      match boolValue bright, boolValue flash with
      | some bright, some flash => some (.attrEncode ink paper bright flash)
      | _, _ => none
  | .ATTR_DECODE, [b] => (portValue 8 b).map .attrDecode
  | .PORT_DECODE, [b] => (portValue 8 b).map .portDecode
  | .PORT_POLL, [] => some .portPoll
  | .CELL_ADDRESS, [x, y] =>
      match portValue 8 x, portValue 8 y with
      | some x, some y => some (.cellAddress x y)
      | _, _ => none
  | .SET_CELL_COLOR, [x, y, attr] =>
      match portValue 8 x, portValue 8 y, portValue 8 attr with
      | some x, some y, some attr => some (.setCellColor x y attr)
      | _, _, _ => none
  | .SET_BORDER, [c] => some (.setBorder c)
  | .REG_READ, _ => none
  | .REG_WRITE, _ => none
  | .ATTR_ENCODE, _ => none
  | .ATTR_DECODE, _ => none
  | .PORT_DECODE, _ => none
  | .PORT_POLL, _ => none
  | .CELL_ADDRESS, _ => none
  | .SET_CELL_COLOR, _ => none
  | .SET_BORDER, _ => none

/-- The operand values of an operation in the order of its text form (R62). -/
def operandsOf : Instr → List Nat
  | .regRead a => [a.toNat]
  | .regWrite a d => [a.toNat, d.toNat]
  | .attrEncode ink paper bright flash => [ink, paper, bright.toNat, flash.toNat]
  | .attrDecode b => [b.toNat]
  | .portDecode b => [b.toNat]
  | .portPoll => []
  | .cellAddress x y => [x.toNat, y.toNat]
  | .setCellColor x y attr => [x.toNat, y.toNat, attr.toNat]
  | .setBorder c => [c]

/-- The operation a line spells where these names are bound. -/
def assembleCall (names : List (String × Nat)) (c : Call) : Option Instr :=
  match operandValues names c.args with
  | some vs => assemble c.op vs
  | none => none

/-- "`-> name` after an operation binds its result for later operands" (R62): the result is the response
word of the operation that has just completed, as a number. DESIGN CHOICE (assumption 14): REG_WRITE,
SET_CELL_COLOR and SET_BORDER have no result, and a name after one of them is bound to 0, their response
word. -/
def State.bindResult (bind : Option String) (s : State) : State :=
  match bind, s.responses.getLast? with
  | some id, some r => { s with names := (id, r.pack.toNat) :: s.names }
  | _, _ => s

end Sys2Proof.Machine
end

