-- ==== Sys2Proof/Machine/Requester.lean ====
section
/-! DEFINITION. The requester (spec/20_memory.md rule R31): it issues its list item by item (spec/10_state.md
rule R15). The items ENTITY_DRAW, DRIVER_ITERATION and the loop are those of the reference caller
(spec/44_reference_caller.md): software that expands into operations of the block. A DRIVER_ITERATION
takes one step for its update and one for each draw, so that the external agent can act between any two
of its accesses (R44, R155). -/

namespace Sys2Proof.Machine

/-- A request word that matches no row (R59): no access, the answer `illegal` = 1 with `R` = 0, `V_ILLEGAL`,
and the run is refused. -/
def refuseWord (w : Word) (s : State) : Host.Outcome State Fault Refusal :=
  .refused (.illegalRequest illegalAnswer (s.violate [.illegal w]).viol)

/-- Hand one request word to the block (R56, R57, R59). -/
def issueWord (w : Word) (s : State) : Host.Outcome State Fault Refusal :=
  match decode w with
  | .ok i => andThen (exec i s) fun t => .next t.advance
  | .error _ => refuseWord w s

/-- Issue one operation in text form and bind its result (R62). -/
def issueCall (c : Call) (s : State) : Host.Outcome State Fault Refusal :=
  match assembleCall s.names c with
  | some i => andThen (exec i s) fun t => .next (t.bindResult c.bind).advance
  | none => .refused .malformedCall

/-- ENTITY_DRAW (R117): `SET_CELL_COLOR ent[i].x, ent[i].y, ent[i].attr`. -/
def drawEntity (i : Nat) (s : State) : Host.Outcome State Fault Refusal :=
  match s.ents[i]? with
  | some e => exec (.setCellColor e.x e.y e.attr) s
  | none => .refused (.noEntity i)

/-- `(y + 1) mod 24`, the sum and the remainder over the integers (R118). -/
def nextRow (y : Coord) : Coord := BitVec.ofNat 8 ((y.toNat + 1) % 24)

/-- The update step of the driver (R118): `ent[0].y <- (ent[0].y + 1) mod 24`, refused with `V_ENTITY` where
`ent[0].y >= 24`; then the draws begin with entity 0 (R119). -/
def driverUpdate (s : State) : Host.Outcome State Fault Refusal :=
  match s.ents with
  | [] => .refused (.noEntity 0)
  | e :: es =>
      checked (entityCause e.y)
        (fun t => .next { t with ents := { e with y := nextRow e.y } :: es, drawing := some 0 }) s

/-- After the draw of entity `i`: the next one in creation order, or the end of the iteration (R119). -/
def afterDraw (i : Nat) (s : State) : State :=
  if i + 1 < s.ents.length then { s with drawing := some (i + 1) }
  else { s with drawing := none, pc := s.pc + 1 }

/-- One draw of a DRIVER_ITERATION (R119). -/
def driverDraw (i : Nat) (s : State) : Host.Outcome State Fault Refusal :=
  andThen (drawEntity i s) fun t => .next (afterDraw i t)

/-- Issue one item of the list. -/
def issue (r : Request) (s : State) : Host.Outcome State Fault Refusal :=
  match r with
  | .word w => issueWord w s
  | .call c => issueCall c s
  | .entityDraw i => andThen (drawEntity i s) fun t => .next t.advance
  | .driverIteration => driverUpdate s
  | .goto target => .next { s with pc := target }

/-- One step of the requester: the next draw of an iteration in progress, else the item at `pc`. At the end
of the list the run has ended (R157): the requester issues nothing and the state stays (assumption 7). -/
def requesterStep (s : State) : Host.Outcome State Fault Refusal :=
  match s.drawing with
  | some i => driverDraw i s
  | none =>
      match s.program[s.pc]? with
      | some r => issue r s
      | none => .next s

/-- The run has ended: no item is left and no iteration is in progress (R15, R157). -/
def State.ended (s : State) : Bool := s.drawing.isNone && decide (s.program.length ≤ s.pc)

/-- The program of the reference caller (R120): `loop: DRIVER_ITERATION; pc <- loop`. -/
def referenceCaller : List Request := [.driverIteration, .goto 0]

/-- Creation of an entity (R116): its attribute byte is computed once, by ATTR_ENCODE of its fixed colors;
none where a Color is out of range (R83). -/
def createEntity (x y : Coord) (ink paper : Nat) (bright flash : Bool) : Option Entity :=
  if ink ≤ 7 ∧ paper ≤ 7 then some ⟨x, y, encodeAttr ink paper bright flash⟩ else none

/-- Place a request word where the next step takes its item from: at `pc` of the operation list (a list
shorter than `pc` is filled up), with no iteration in progress. -/
def placeWord (w : Word) (s : State) : State :=
  { s with
    program := s.program.take s.pc ++ List.replicate (s.pc - s.program.length) (.goto 0)
      ++ .word w :: s.program.drop (s.pc + 1)
    drawing := none }

end Sys2Proof.Machine
end

