-- ==== Sys2Proof/Machine/Step.lean ====
section
/-! DEFINITION. One step of the machine: the external agent's turn, then one step of the requester
(spec/20_memory.md rules R41, R43 and R44: the agent acts between operations, not inside one). -/

namespace Sys2Proof.Machine

/-- One step. -/
def step (s : State) : Host.Outcome State Fault Refusal :=
  requesterStep s.externalTurn

/-- `s` with the request word `w` (its low `nbits` bits; the others 0) as the next item of the requester's
list. Words are 32 bits (R56). -/
def State.withFetchWord (s : State) (nbits w : Nat) : State :=
  placeWord (BitVec.ofNat 32 (w % 2 ^ nbits)) s

end Sys2Proof.Machine
end

