-- ==== Sys2Proof/Safety.lean ====
section
/-! DEFINITION. What counts as a safe run, in the terms claims use: the duties of the caller
(spec/70_reset_and_hazards.md rule R153), the named premises of the spec (`ConfigDisjoint`, rule R35), the
invariant of the state, and which accesses an operation makes. -/

namespace Sys2Proof.Machine

/-- No duty has been broken: `viol` is empty (R133). -/
abbrev State.Clean (s : State) : Prop := s.viol = []

/-- Both open addresses have been supplied for the target hardware (R152 step 1). -/
abbrev Resolved (cfg : Config) : Prop := cfg.borderResolved = true ∧ cfg.inputPortResolved = true

/-- `a` is one of the 768 table addresses `cfg.ColorTableBase + k`, `k` in 0 .. 767 (R17), the sum reduced
mod 2^16 as in R101. -/
def inTable (cfg : Config) (a : Address) : Bool := decide ((a - cfg.colorTableBase).toNat < 768)

/-- `ConfigDisjoint(cfg)`: the border register, the input port and the table addresses are pairwise
different (R35). -/
def configDisjoint (cfg : Config) : Bool :=
  cfg.borderAddr != cfg.inputPortAddr && !inTable cfg cfg.borderAddr && !inTable cfg cfg.inputPortAddr

/-- An access as the order of accesses fixes it: the address read, or the address and the value written
(R73). The value a read returns is not among it. -/
inductive Site where
  | reads (a : Address)
  | writes (a : Address) (v : Byte)
  deriving DecidableEq, Repr

/-- The address of an access. -/
def Site.addr : Site → Address
  | .reads a => a
  | .writes a _ => a

/-- The access an event of the block records; none for the external agent's (R38). -/
def Event.site : Event → Option Site
  | .rd a _ => some (.reads a)
  | .wr a v => some (.writes a v)
  | .extWr _ _ => none

/-- The sub-list of `Rd` and `Wr` events, oldest first (R38, R73). -/
def blockSites (tr : List Event) : List Site := tr.filterMap Event.site

/-- The one access an operation makes under a configuration; none for a pure operation (R4, R41). -/
def accessOf (cfg : Config) : Instr → Option Site
  | .regRead a => some (.reads a)
  | .regWrite a d => some (.writes a d)
  | .attrEncode _ _ _ _ => none
  | .attrDecode _ => none
  | .portDecode _ => none
  | .portPoll => some (.reads cfg.inputPortAddr)
  | .cellAddress _ _ => none
  | .setCellColor x y attr => some (.writes (cellAddr cfg x y) attr)
  | .setBorder c => some (.writes cfg.borderAddr (borderByte c))

/-- The Color operands of an operation, which `V_COLOR` is about: those of ATTR_ENCODE and SET_BORDER
(R134 row 2). -/
def colorOperands : Instr → List Nat
  | .regRead _ => []
  | .regWrite _ _ => []
  | .attrEncode ink paper _ _ => [ink, paper]
  | .attrDecode _ => []
  | .portDecode _ => []
  | .portPoll => []
  | .cellAddress _ _ => []
  | .setCellColor _ _ _ => []
  | .setBorder c => [c]

/-- No "refuse" cause of R134 applies to the operation: its Color operands are Colors, and its access, if
it makes one, is at a valid address. -/
def Allowed (cfg : Config) (i : Instr) : Prop :=
  (∀ c ∈ colorOperands i, c ≤ 7) ∧ ∀ site, accessOf cfg i = some site → validAddr cfg site.addr = true

/-- The latest write to `a` by either agent in a list of events, oldest first (R36, R43 (a)). -/
def lastWrite (a : Address) : List Event → Option Byte
  | [] => none
  | e :: es =>
      match lastWrite a es, e with
      | some v, _ => some v
      | none, .wr b v => if b = a then some v else none
      | none, .extWr b v => if b = a then some v else none
      | none, .rd _ _ => none

/-- Every byte of `mem` is the latest write to its address in `trace`, and nothing is known of an address
without one (R23, R43 (a)). -/
def State.TraceExplainsMem (s : State) : Prop := ∀ a : Address, Memory.read s.mem a = lastWrite a s.trace

/-- Two states agree in everything an operation of the block does not touch: the configuration, the
registers and the list of the caller, the bound names and the external agent (R10, R11, R20). -/
structure SameRest (s t : State) : Prop where
  cfg : t.cfg = s.cfg
  ents : t.ents = s.ents
  program : t.program = s.program
  pc : t.pc = s.pc
  drawing : t.drawing = s.drawing
  names : t.names = s.names
  agent : t.agent = s.agent

/-- Issue a list of operations one after the other, with the external agent's turn before each (R43, R73). -/
def execAll : List Instr → State → Host.Outcome State Fault Refusal
  | [], s => .next s
  | i :: is, s => andThen (exec i s.externalTurn) (execAll is)

/-- A number of steps of the machine, stopping at the first refusal. -/
def steps : Nat → State → Host.Outcome State Fault Refusal
  | 0, s => .next s
  | n + 1, s => andThen (step s) (steps n)

/-- The invariant of the state: `mem` in its canonical form (R30), `viol` a set (R21), and an iteration in
progress draws an existing entity (R119). -/
structure State.Inv (s : State) : Prop where
  memWf : Memory.wf s.mem
  violNodup : s.viol.Nodup
  drawing : ∀ i, s.drawing = some i → i < s.ents.length

end Sys2Proof.Machine
end

