-- ==== Sys2Proof/Certificates/Slice0/Obligations.lean ====
section
/-! DEFINITION. The statements for the provers, in the order of the spec's files. -/

open Sys2Proof Sys2Proof.Machine

/-! ### Reset, the step and the requester -/

/-- What reset leaves (R23, R150; the configuration of R5, the entities of R116). The model's own: the
operation list, the responses and the bound names are empty and no iteration is in progress (assumption 8),
the external agent is free (assumption 6), and both address sets hold every address (assumption 2). -/
def Obligations.ResetState : Prop :=
  (∀ a : Address, Memory.read State.reset.mem a = none) ∧
  State.reset.trace = [] ∧ State.reset.viol = [] ∧ State.reset.pc = 0 ∧ State.reset.drawing = none ∧
  State.reset.ents = [⟨2, 12, 32⟩, ⟨30, 12, 16⟩] ∧
  State.reset.cfg.colorTableBase = 22528 ∧ State.reset.cfg.borderAddr = 100 ∧
  State.reset.cfg.inputPortAddr = 0 ∧ State.reset.cfg.borderResolved = false ∧
  State.reset.cfg.inputPortResolved = false ∧
  (∀ a : Address, validAddr State.reset.cfg a = true) ∧ (∀ a : Address, extMutable State.reset.cfg a = true) ∧
  State.reset.program = [] ∧ State.reset.responses = [] ∧ State.reset.names = [] ∧ State.reset.agent = .free

/-- A step runs the decoded operation: where the item at `pc` is a word that decodes to `i`, the step is
the external agent's turn, then `exec i`, then `pc + 1` (R15, R44, R56, R61). -/
def Obligations.StepRunsDecodedWord : Prop :=
  ∀ (s : State) (w : Word) (i : Instr), s.drawing = none → s.program[s.pc]? = some (.word w) →
    decode w = .ok i →
    step s = match exec i s.externalTurn with
      | .next t => .next { t with pc := t.pc + 1 }
      | .fault f => .fault f
      | .refused r => .refused r

/-- A step runs a line in text form (R62): where the line's operands, which are numbers, Colors, bools or
bound names, spell the operation `i`, the step is the external agent's turn, then `exec i`, then `pc + 1`;
`-> name` binds the response, and a line without it binds nothing; a refused operation is a refused step.
The model's own: the name stands for the packed response word, which is unsafe for a bound tuple and after
an operation without a result (assumption 14), and a Color name or bool stands for its number in every operand position (assumption 22). -/
def Obligations.StepRunsTextForm : Prop :=
  ∀ (s : State) (op : Mnemonic) (args : List Operand) (bind : Option String) (vs : List Nat) (i : Instr),
    s.drawing = none → s.program[s.pc]? = some (.call ⟨op, args, bind⟩) →
    args.mapM (fun o => o.value s.names) = some vs → assemble op vs = some i →
    (∀ t : State, exec i s.externalTurn = .next t →
      (bind = none → step s = .next { t with pc := t.pc + 1 }) ∧
      (∀ id : String, bind = some id → ∃ r : Response, t.responses = s.responses ++ [r] ∧
        step s = .next { t with names := (id, r.pack.toNat) :: t.names, pc := t.pc + 1 })) ∧
    (∀ q : Refusal, exec i s.externalTurn = .refused q → step s = .refused q)

/-- The agent's turn before a step changes only addresses of `ExtMutable`, and records each of its writes
(R44); every address it writes holds its latest write to it, every other byte stays, and nothing else of the
state changes but its script and the draw counter. A free agent's writes are those
of the free value, a played agent's are the next turn of its script, each without the writes outside
`ExtMutable`; a script used up is an idle agent (R159). That its turn comes before each step, and its two
kinds, are the model's form of R44 (assumption 6). -/
def Obligations.ExternalTurnWritesOnlyMutable : Prop :=
  ∀ s : State, ∃ es : List ExtWrite, (∀ e ∈ es, extMutable s.cfg e.addr = true) ∧
    (s.agent = .free → es = (Config.extBatch s.draws).filter (fun e => extMutable s.cfg e.addr) ∧
      s.externalTurn.agent = .free) ∧
    (∀ (turn : List ExtWrite) (rest : List (List ExtWrite)), s.agent = .scripted (turn :: rest) →
      es = turn.filter (fun e => extMutable s.cfg e.addr) ∧ s.externalTurn.agent = .scripted rest) ∧
    (s.agent = .scripted [] → es = [] ∧ s.externalTurn.agent = .scripted []) ∧
    s.externalTurn.trace = s.trace ++ es.map (fun e => Event.extWr e.addr e.value) ∧
    (∀ a : Address, (∀ e ∈ es, e.addr ≠ a) → Memory.read s.externalTurn.mem a = Memory.read s.mem a) ∧
    (∀ (before later : List ExtWrite) (e : ExtWrite), es = before ++ e :: later →
      (∀ d ∈ later, d.addr ≠ e.addr) → Memory.read s.externalTurn.mem e.addr = some e.value) ∧
    s.externalTurn.cfg = s.cfg ∧ s.externalTurn.viol = s.viol ∧ s.externalTurn.ents = s.ents ∧
    s.externalTurn.program = s.program ∧ s.externalTurn.pc = s.pc ∧
    s.externalTurn.drawing = s.drawing ∧ s.externalTurn.responses = s.responses ∧
    s.externalTurn.names = s.names

/-- At the end of the list the requester issues nothing (R157; that the step then answers the state after
the external agent's turn is the model's choice, assumption 7). -/
def Obligations.EndedRunStays : Prop :=
  ∀ s : State, s.drawing = none → s.program.length ≤ s.pc → step s = .next s.externalTurn

/-- Every operation completes, or is refused with its marks, and it is refused exactly where a "refuse" cause
of R134 applies: a Color operand outside 0 .. 7 (`V_COLOR`) or an access at an invalid address (`V_ADDR`), each
of which is then among the marks. There is no third outcome, and no exception is raised (R130). That a Color
operand can be wider than its port is the model's choice (assumption 3). -/
def Obligations.OperationsCompleteOrRefuse : Prop :=
  ∀ (i : Instr) (s : State),
    (Allowed s.cfg i → ∃ t : State, exec i s = .next t) ∧
    (¬ Allowed s.cfg i → ∃ marks : List Violation, exec i s = .refused (.violated marks) ∧
      (∀ v ∈ s.viol, v ∈ marks) ∧ (∀ c ∈ colorOperands i, 7 < c → .color c ∈ marks) ∧
      ∀ site, accessOf s.cfg i = some site → validAddr s.cfg site.addr = false → .addr site.addr ∈ marks)

/-! ### Encodings -/

/-- A few words written out from R56 and R57 decode to the operations they stand for. -/
def Obligations.WrittenOutWordsDecode : Prop :=
  decode 0x1059A200 = .ok (.regRead 22946) ∧ decode 0x20580020 = .ok (.regWrite 22528 32) ∧
  decode 0x30010601 = .ok (.attrEncode 1 6 true false) ∧ decode 0x400000CF = .ok (.attrDecode 0xCF) ∧
  decode 0x50000011 = .ok (.portDecode 0x11) ∧ decode 0x60000000 = .ok .portPoll ∧
  decode 0x70050000 = .ok (.cellAddress 5 0) ∧ decode 0x80020D20 = .ok (.setCellColor 2 13 32) ∧
  decode 0x90000002 = .ok (.setBorder 2)

/-- Decoding the word of a well-formed operation gives the operation back, every operand at every value
its field admits (R56, R57, R61). -/
def Obligations.DecodeOfEncode : Prop :=
  ∀ i : Instr, i.WellFormed → decode (encode i) = .ok i

/-- A word the decoder accepts is the word of the operation it reads, which is well-formed: no bit of the
word is dropped (R56, R57, R59). -/
def Obligations.EncodeOfDecode : Prop :=
  ∀ (w : Word) (i : Instr), decode w = .ok i → i.WellFormed ∧ encode i = w

/-- "The nine match/mask pairs are disjoint" (R57): every word selects at most one row. -/
def Obligations.RowsAreDisjoint : Prop :=
  ∀ (w : Word) (m n : Mnemonic), w &&& m.mask = m.pattern → w &&& n.mask = n.pattern → m = n

/-- A word that matches no row is answered `illegal` = 1 with `R` = 0, marks `V_ILLEGAL` with the word, and
the run is refused (R59). -/
def Obligations.IllegalWordIsRefused : Prop :=
  ∀ (s : State) (w : Word), s.drawing = none → s.program[s.pc]? = some (.word w) →
    (∀ m : Mnemonic, w &&& m.mask ≠ m.pattern) →
    ∃ marks : List Violation, step s = .refused (.illegalRequest ⟨true, 0⟩ marks) ∧
      ∀ v : Violation, v ∈ marks ↔ v ∈ s.viol ∨ v = .illegal w

/-- A word that matches a row is answered by its operation: the step gets a next state, or is refused with the
mark `V_ADDR` of an invalid address, the one "refuse" cause of R134 that a request word can meet. It is never
answered `illegal` (R58, R59). -/
def Obligations.LegalWordIsNotIllegal : Prop :=
  ∀ (s : State) (w : Word) (m : Mnemonic), s.drawing = none → s.program[s.pc]? = some (.word w) →
    w &&& m.mask = m.pattern →
    (∃ t : State, step s = .next t) ∨
    ∃ (marks : List Violation) (a : Address), step s = .refused (.violated marks) ∧ .addr a ∈ marks ∧
      validAddr s.cfg a = false

/-- The text form spells every operation: its mnemonic with its operands in the source's order assembles
to it (R62). -/
def Obligations.TextFormSpellsEveryOperation : Prop :=
  ∀ i : Instr, assemble i.mnemonic (operandsOf i) = some i

/-- The response words of R58, as numbers. -/
def Obligations.ResponseWordLayout : Prop :=
  (∀ b : Byte, (Response.byte b).pack.toNat = b.toNat) ∧
  (∀ (ink paper : Color) (bright flash : Bool), (Response.fields ⟨ink, paper, bright, flash⟩).pack.toNat =
    ink.toNat + 2 ^ 8 * paper.toNat + 2 ^ 16 * bright.toNat + 2 ^ 17 * flash.toNat) ∧
  (∀ right left down up fire : Bool, (Response.signals ⟨right, left, down, up, fire⟩).pack.toNat =
    right.toNat + 2 * left.toNat + 4 * down.toNat + 8 * up.toNat + 16 * fire.toNat) ∧
  (∀ a : Address, (Response.address a).pack.toNat = a.toNat) ∧ Response.done.pack.toNat = 0

/-! ### RegisterAccess -/

/-- REG_READ at a valid address completes with the latest byte written there, or a free value where nothing
has been written or the address is the border register's and may be changed from outside; one event
`Rd`; memory and everything else unchanged (R36, R71, R18; the free values are assumptions 4, 5 and 12). -/
def Obligations.RegReadReturnsTheByte : Prop :=
  ∀ (s : State) (a : Address), validAddr s.cfg a = true →
    ∃ v : Byte,
      exec (.regRead a) s = .next { s with
        trace := s.trace ++ [Event.rd a v], responses := s.responses ++ [Response.byte v], draws := s.draws + 1 } ∧
      v = if a = s.cfg.borderAddr ∧ extMutable s.cfg a = true then Config.freeByte s.draws
          else match Memory.read s.mem a with
            | some u => u
            | none => Config.freeByte s.draws

/-- REG_WRITE at a valid address completes: the byte reads back, every other byte is unchanged, one event
`Wr`, nothing else changes (R37, R72). -/
def Obligations.RegWriteSetsTheByte : Prop :=
  ∀ (s : State) (a : Address) (d : Byte), validAddr s.cfg a = true →
    ∃ m : Memory,
      exec (.regWrite a d) s = .next { s with
        mem := m, trace := s.trace ++ [Event.wr a d], responses := s.responses ++ [Response.done] } ∧
      Memory.read m a = some d ∧ ∀ b : Address, b ≠ a → Memory.read m b = Memory.read s.mem b

/-- An access at an invalid address is refused with `V_ADDR` and the address, whichever of the five accessing
operations makes it; REG_READ and REG_WRITE mark nothing else (R34, R134). -/
def Obligations.InvalidAddressIsRefused : Prop :=
  (∀ (i : Instr) (s : State) (site : Site), accessOf s.cfg i = some site → validAddr s.cfg site.addr = false →
    ∃ marks : List Violation, exec i s = .refused (.violated marks) ∧ .addr site.addr ∈ marks) ∧
  (∀ (s : State) (a : Address) (d : Byte), validAddr s.cfg a = false →
    ∃ marks : List Violation, exec (.regRead a) s = .refused (.violated marks) ∧
      exec (.regWrite a d) s = .refused (.violated marks) ∧
      ∀ v : Violation, v ∈ marks ↔ v ∈ s.viol ∨ v = .addr a)

/-- A REG_READ right after a REG_WRITE to the same address returns the byte written if the external agent
did not write that address in between, the border register apart (R71 corner case 2, R154, R18). -/
def Obligations.ReadAfterWriteReturnsIt : Prop :=
  ∀ (s t : State) (a : Address) (d : Byte), exec (.regWrite a d) s = .next t →
    (∀ e ∈ t.extWrites, e.addr ≠ a) → ¬ (a = s.cfg.borderAddr ∧ extMutable s.cfg a = true) →
    ∃ u : State, exec (.regRead a) t.externalTurn = .next u ∧ u.responses = s.responses ++ [Response.done, Response.byte d]

/-! ### ColorAttribute -/

/-- ATTR_ENCODE of Colors completes with `ink + paper*8 + (bright ? 64 : 0) + (flash ? 128 : 0)`; nothing but
the response changes (R81). -/
def Obligations.AttrEncodeComputesTheByte : Prop :=
  ∀ (s : State) (ink paper : Nat) (bright flash : Bool), ink ≤ 7 → paper ≤ 7 →
    ∃ b : Byte, b.toNat = ink + paper * 8 + (if bright then 64 else 0) + (if flash then 128 else 0) ∧
      exec (.attrEncode ink paper bright flash) s = .next { s with responses := s.responses ++ [Response.byte b] }

/-- "Hence `+` equals bitwise OR here" (R85): `paper*8` is a multiple of 8 at most 56, so `ink + paper*8` is
at most 63; the encoded byte is the sum, and the OR, of the four fields at their places, which never exceeds
255. -/
def Obligations.EncodingSumIsBitwiseOr : Prop :=
  ∀ (ink paper : Nat) (bright flash : Bool), ink ≤ 7 → paper ≤ 7 →
    (encodeAttr ink paper bright flash).toNat =
      ink + paper * 8 + (if bright then 64 else 0) + (if flash then 128 else 0) ∧
    ink + paper * 8 + (if bright then 64 else 0) + (if flash then 128 else 0) =
      ink ||| (paper * 8) ||| (if bright then 64 else 0) ||| (if flash then 128 else 0) ∧
    ink + paper * 8 + (if bright then 64 else 0) + (if flash then 128 else 0) ≤ 255 ∧
    ink + paper * 8 ≤ 63 ∧ paper * 8 ≤ 56 ∧ paper * 8 % 8 = 0 ∧ paper * 8 = paper <<< 3

/-- ATTR_ENCODE of a number that is no Color is refused with `V_COLOR` for each such operand (R83, R134;
that an operand can be wider than its port is the model's choice, assumption 3). -/
def Obligations.AttrEncodeRefusesNonColors : Prop :=
  ∀ (s : State) (ink paper : Nat) (bright flash : Bool), 7 < ink ∨ 7 < paper →
    ∃ marks : List Violation, exec (.attrEncode ink paper bright flash) s = .refused (.violated marks) ∧
      ∀ v : Violation, v ∈ marks ↔ v ∈ s.viol ∨ (7 < ink ∧ v = .color ink) ∨ (7 < paper ∧ v = .color paper)

/-- ATTR_DECODE completes on every byte with its four fields, in arithmetic (R82); nothing but the response
changes. -/
def Obligations.AttrDecodeSplitsTheByte : Prop :=
  ∀ (s : State) (b : Byte), ∃ f : AttrFields,
    exec (.attrDecode b) s = .next { s with responses := s.responses ++ [Response.fields f] } ∧
    f.ink.toNat = b.toNat % 8 ∧ f.paper.toNat = b.toNat / 8 % 8 ∧
    (f.bright = true ↔ b.toNat / 64 % 2 = 1) ∧ (f.flash = true ↔ b.toNat / 128 = 1)

/-- Encoding and decoding are inverse in both directions (R84). -/
def Obligations.AttrRoundTrip : Prop :=
  (∀ (ink paper : Color) (bright flash : Bool),
    decodeAttr (encodeAttr ink.toNat paper.toNat bright flash) = ⟨ink, paper, bright, flash⟩) ∧
  (∀ b : Byte, encodeAttr (decodeAttr b).ink.toNat (decodeAttr b).paper.toNat (decodeAttr b).bright
    (decodeAttr b).flash = b)

/-- The response word of ATTR_DECODE of an encoded byte is the request word of the ATTR_ENCODE with `op`
cleared (R58: "the same layout as request format F"). -/
def Obligations.DecodedFieldsHaveFormatF : Prop :=
  ∀ (ink paper : Color) (bright flash : Bool),
    (Response.fields (decodeAttr (encodeAttr ink.toNat paper.toNat bright flash))).pack.toNat =
      (encode (.attrEncode ink.toNat paper.toNat bright flash)).toNat % 2 ^ 24

/-! ### InputPort -/

/-- PORT_DECODE completes on every byte with bits 0 to 4 as the five signals; nothing but the response
changes (R91). -/
def Obligations.PortDecodeExtractsTheSignals : Prop :=
  ∀ (s : State) (b : Byte), exec (.portDecode b) s = .next { s with
    responses := s.responses ++ [Response.signals
      ⟨b.toNat.testBit 0, b.toNat.testBit 1, b.toNat.testBit 2, b.toNat.testBit 3, b.toNat.testBit 4⟩] }

/-- "two bytes that agree in bits 4:0 decode alike" (R91 corner case 5), and the packed response is the byte
AND 0x1F. -/
def Obligations.PortDecodeIgnoresHighBits : Prop :=
  (∀ (s : State) (b c : Byte), b.toNat % 32 = c.toNat % 32 → exec (.portDecode b) s = exec (.portDecode c) s) ∧
  (∀ b : Byte, (Response.signals (decodePort b)).pack.toNat = b.toNat % 32)

/-- PORT_POLL with a resolved and valid address is exactly REG_READ of it, and completes with one event
`Rd`, memory unchanged (R92). -/
def Obligations.PortPollReadsThePort : Prop :=
  ∀ s : State, s.cfg.inputPortResolved = true → validAddr s.cfg s.cfg.inputPortAddr = true →
    exec .portPoll s = exec (.regRead s.cfg.inputPortAddr) s ∧
    ∃ v : Byte, exec .portPoll s = .next { s with
      trace := s.trace ++ [Event.rd s.cfg.inputPortAddr v], responses := s.responses ++ [Response.byte v],
      draws := s.draws + 1 }

/-- PORT_POLL while the address is unresolved marks `V_UNRESOLVED`, makes the read at the configured address
all the same, and returns any value: the statement holds whatever the free value is (R92, R134, assumption 5). -/
def Obligations.UnresolvedPollIsMarked : Prop :=
  ∀ s : State, s.cfg.inputPortResolved = false → validAddr s.cfg s.cfg.inputPortAddr = true →
    ∃ marks : List Violation, exec .portPoll s = .next { s with
        viol := marks
        trace := s.trace ++ [Event.rd s.cfg.inputPortAddr (Config.freeByte s.draws)]
        responses := s.responses ++ [Response.byte (Config.freeByte s.draws)]
        draws := s.draws + 1 } ∧
      ∀ v : Violation, v ∈ marks ↔ v ∈ s.viol ∨ v = .unresolved s.cfg.inputPortAddr

/-- "the signals always describe the one byte that the one read returned" (R94): a poll, and then a decode of
the byte it returned whatever the external agent does in between. -/
def Obligations.PollThenDecodeDescribesOneByte : Prop :=
  ∀ s t : State, exec .portPoll s = .next t →
    ∃ v : Byte, t.responses = s.responses ++ [Response.byte v] ∧
      t.trace = s.trace ++ [Event.rd s.cfg.inputPortAddr v] ∧
      ∃ u : State, exec (.portDecode v) t.externalTurn = .next u ∧
        u.responses = s.responses ++ [Response.byte v, Response.signals (decodePort v)]

/-! ### DisplayInterface -/

/-- CELL_ADDRESS completes on every pair of coordinates with the sum reduced mod 2^16 (for every base,
assumption 18); nothing but the response changes and nothing is marked (R101). -/
def Obligations.CellAddressIsTheSum : Prop :=
  ∀ (s : State) (x y : Coord), ∃ a : Address,
    a.toNat = (s.cfg.colorTableBase.toNat + (x.toNat + 32 * y.toNat)) % 2 ^ 16 ∧
    exec (.cellAddress x y) s = .next { s with responses := s.responses ++ [Response.address a] }

/-- With base 22528 the address of an in-range cell is `0b010110 : y[4:0] : x[4:0]` (R54). -/
def Obligations.InRangeAddressIsConcatenation : Prop :=
  ∀ (cfg : Config) (x y : Coord), cfg.colorTableBase = 22528 → x.toNat ≤ 31 → y.toNat ≤ 23 →
    (cellAddr cfg x y).extractLsb' 10 6 = (0b010110 : BitVec 6) ∧
    (cellAddr cfg x y).extractLsb' 5 5 = y.extractLsb' 0 5 ∧
    (cellAddr cfg x y).extractLsb' 0 5 = x.extractLsb' 0 5

/-- In range the translator is a bijection from the 768 cells onto the 768 table addresses: the offset of a
cell is `32*y + x`, the base-32 numeral of the pair, and every address 22528 .. 23295 is the address of
exactly one cell (R106). -/
def Obligations.CellsAndTableAddressesCorrespond : Prop :=
  ∀ cfg : Config, cfg.colorTableBase = 22528 →
    (∀ x y : Coord, x.toNat ≤ 31 → y.toNat ≤ 23 →
      (cellAddr cfg x y).toNat = 22528 + (32 * y.toNat + x.toNat) ∧ (cellAddr cfg x y).toNat ≤ 23295 ∧
      x.toNat = ((cellAddr cfg x y).toNat - 22528) % 32 ∧ y.toNat = ((cellAddr cfg x y).toNat - 22528) / 32) ∧
    (∀ a : Address, 22528 ≤ a.toNat → a.toNat ≤ 23295 →
      ∃! c : Coord × Coord, c.1.toNat ≤ 31 ∧ c.2.toNat ≤ 23 ∧ cellAddr cfg c.1 c.2 = a)

/-- Where out-of-range pairs land (R107): with `o = x + 32*y`, the write hits the cell in column `o mod 32`,
row `o div 32` when `o <= 767`, else the address `22528 + o` outside the table; `y >= 24` is always outside,
and for `y <= 23` the write stays inside exactly when `y + x div 32 <= 23`. -/
def Obligations.OutOfRangePairsLand : Prop :=
  ∀ (cfg : Config) (x y cx cy : Coord), cfg.colorTableBase = 22528 →
    (∀ (s t : State) (attr : Byte), s.cfg = cfg → exec (.setCellColor x y attr) s = .next t →
      t.trace = s.trace ++ [Event.wr (cellAddr cfg x y) attr]) ∧
    (x.toNat + 32 * y.toNat) % 32 = x.toNat % 32 ∧ (x.toNat + 32 * y.toNat) / 32 = y.toNat + x.toNat / 32 ∧
    (x.toNat + 32 * y.toNat ≤ 767 → cx.toNat = (x.toNat + 32 * y.toNat) % 32 →
      cy.toNat = (x.toNat + 32 * y.toNat) / 32 → cellAddr cfg x y = cellAddr cfg cx cy) ∧
    (768 ≤ x.toNat + 32 * y.toNat →
      (cellAddr cfg x y).toNat = 22528 + (x.toNat + 32 * y.toNat) ∧
      23296 ≤ (cellAddr cfg x y).toNat ∧ (cellAddr cfg x y).toNat ≤ 30943) ∧
    (24 ≤ y.toNat → 768 ≤ x.toNat + 32 * y.toNat) ∧
    (y.toNat ≤ 23 → (x.toNat + 32 * y.toNat ≤ 767 ↔ y.toNat + x.toNat / 32 ≤ 23))

/-- SET_CELL_COLOR completes wherever the formula address is valid: one byte at that address becomes `attr`,
one event `Wr`, `V_CELL` is marked exactly when the cell is out of range, nothing else changes (R102,
R104). -/
def Obligations.SetCellColorWritesTheCell : Prop :=
  ∀ (s : State) (x y : Coord) (attr : Byte) (a : Address),
    a = BitVec.ofNat 16 (s.cfg.colorTableBase.toNat + (x.toNat + 32 * y.toNat)) → validAddr s.cfg a = true →
    ∃ (m : Memory) (marks : List Violation),
      exec (.setCellColor x y attr) s = .next { s with
        mem := m, trace := s.trace ++ [Event.wr a attr], viol := marks, responses := s.responses ++ [Response.done] } ∧
      Memory.read m a = some attr ∧ (∀ b : Address, b ≠ a → Memory.read m b = Memory.read s.mem b) ∧
      (x.toNat ≤ 31 ∧ y.toNat ≤ 23 → marks = s.viol) ∧
      (¬ (x.toNat ≤ 31 ∧ y.toNat ≤ 23) → ∀ v : Violation, v ∈ marks ↔ v ∈ s.viol ∨ v = .cell x y)

/-- In range, SET_CELL_COLOR is exactly `REG_WRITE CELL_ADDRESS(x, y), attr` (R102). -/
def Obligations.SetCellColorIsRegWrite : Prop :=
  ∀ (s : State) (x y : Coord) (attr : Byte), x.toNat ≤ 31 → y.toNat ≤ 23 →
    exec (.setCellColor x y attr) s = exec (.regWrite (cellAddr s.cfg x y) attr) s

/-- Several causes in one operation are all marked, and a "refuse" code suppresses the access (R135). -/
def Obligations.AllCausesAreMarked : Prop :=
  ∀ (s : State) (x y : Coord) (attr : Byte) (c : Nat),
    (validAddr s.cfg (cellAddr s.cfg x y) = false →
      ∃ marks : List Violation, exec (.setCellColor x y attr) s = .refused (.violated marks) ∧
        ∀ v : Violation, v ∈ marks ↔ v ∈ s.viol ∨ (¬ (x.toNat ≤ 31 ∧ y.toNat ≤ 23) ∧ v = .cell x y) ∨
          v = .addr (cellAddr s.cfg x y)) ∧
    (7 < c ∨ validAddr s.cfg s.cfg.borderAddr = false →
      ∃ marks : List Violation, exec (.setBorder c) s = .refused (.violated marks) ∧
        ∀ v : Violation, v ∈ marks ↔ v ∈ s.viol ∨ (7 < c ∧ v = .color c) ∨
          (s.cfg.borderResolved = false ∧ v = .unresolved s.cfg.borderAddr) ∨
          (validAddr s.cfg s.cfg.borderAddr = false ∧ v = .addr s.cfg.borderAddr)) ∧
    (validAddr s.cfg s.cfg.inputPortAddr = false →
      ∃ marks : List Violation, exec .portPoll s = .refused (.violated marks) ∧
        ∀ v : Violation, v ∈ marks ↔ v ∈ s.viol ∨
          (s.cfg.inputPortResolved = false ∧ v = .unresolved s.cfg.inputPortAddr) ∨
          v = .addr s.cfg.inputPortAddr)

/-- SET_BORDER of a Color at a valid address completes: the byte at `cfg.BorderAddr` becomes the Color with
zeros in bits 7:3, one event `Wr`, `V_UNRESOLVED` is marked exactly while the address is unresolved,
nothing else changes (R53, R103). -/
def Obligations.SetBorderWritesTheColor : Prop :=
  ∀ (s : State) (c : Nat), c ≤ 7 → validAddr s.cfg s.cfg.borderAddr = true →
    ∃ (m : Memory) (marks : List Violation) (b : Byte), b.toNat = c ∧
      exec (.setBorder c) s = .next { s with
        mem := m, trace := s.trace ++ [Event.wr s.cfg.borderAddr b], viol := marks,
        responses := s.responses ++ [Response.done] } ∧
      Memory.read m s.cfg.borderAddr = some b ∧
      (∀ a : Address, a ≠ s.cfg.borderAddr → Memory.read m a = Memory.read s.mem a) ∧
      (s.cfg.borderResolved = true → marks = s.viol) ∧
      (s.cfg.borderResolved = false → ∀ v : Violation, v ∈ marks ↔ v ∈ s.viol ∨ v = .unresolved s.cfg.borderAddr)

/-! ### Frames -/

/-- The frame of the pure operations ATTR_ENCODE, ATTR_DECODE, PORT_DECODE and CELL_ADDRESS: one response
is added and nothing else changes, no byte of memory among it (R80, R91, R101). -/
def Obligations.PureOperationFrame : Prop :=
  ∀ (i : Instr) (s t : State),
    (∃ ink paper bright flash, i = .attrEncode ink paper bright flash) ∨ (∃ b, i = .attrDecode b) ∨
      (∃ b, i = .portDecode b) ∨ (∃ x y, i = .cellAddress x y) →
    exec i s = .next t →
    SameRest s t ∧ t.trace = s.trace ∧ t.viol = s.viol ∧ t.draws = s.draws ∧
      (∃ r : Response, t.responses = s.responses ++ [r]) ∧
      ∀ a : Address, Memory.read t.mem a = Memory.read s.mem a

/-- The frame of the reads REG_READ and PORT_POLL: no byte of memory changes; only the event, the response,
the draw counter and, for PORT_POLL, the mark `V_UNRESOLVED` are new (R36, R71, R92). -/
def Obligations.ReadFrame : Prop :=
  (∀ (s t : State) (a : Address), exec (.regRead a) s = .next t →
    SameRest s t ∧ t.viol = s.viol ∧ t.draws = s.draws + 1 ∧
      (∃ v : Byte, t.trace = s.trace ++ [Event.rd a v] ∧ t.responses = s.responses ++ [Response.byte v]) ∧
      ∀ b : Address, Memory.read t.mem b = Memory.read s.mem b) ∧
  (∀ s t : State, exec .portPoll s = .next t →
    SameRest s t ∧ (∀ v : Violation, v ∈ t.viol → v ∈ s.viol ∨ v = .unresolved s.cfg.inputPortAddr) ∧
      (∀ v ∈ s.viol, v ∈ t.viol) ∧ t.draws = s.draws + 1 ∧
      (∃ v : Byte, t.trace = s.trace ++ [Event.rd s.cfg.inputPortAddr v] ∧ t.responses = s.responses ++ [Response.byte v]) ∧
      ∀ b : Address, Memory.read t.mem b = Memory.read s.mem b)

/-- The frame of the writes REG_WRITE, SET_CELL_COLOR and SET_BORDER: every byte outside the one stored
reads as before; only memory, the event, the response and the marks of R134 are new (R37, R72, R102,
R103). -/
def Obligations.WriteFrame : Prop :=
  (∀ (s t : State) (a : Address) (d : Byte), exec (.regWrite a d) s = .next t →
    SameRest s t ∧ t.viol = s.viol ∧ t.draws = s.draws ∧ t.trace = s.trace ++ [Event.wr a d] ∧
      t.responses = s.responses ++ [Response.done] ∧
      ∀ b : Address, b ≠ a → Memory.read t.mem b = Memory.read s.mem b) ∧
  (∀ (s t : State) (x y : Coord) (attr : Byte), exec (.setCellColor x y attr) s = .next t →
    SameRest s t ∧ (∀ v : Violation, v ∈ t.viol → v ∈ s.viol ∨ v = .cell x y) ∧ (∀ v ∈ s.viol, v ∈ t.viol) ∧
      t.draws = s.draws ∧ t.trace = s.trace ++ [Event.wr (cellAddr s.cfg x y) attr] ∧
      t.responses = s.responses ++ [Response.done] ∧
      ∀ b : Address, b ≠ cellAddr s.cfg x y → Memory.read t.mem b = Memory.read s.mem b) ∧
  (∀ (s t : State) (c : Nat), exec (.setBorder c) s = .next t →
    SameRest s t ∧ (∀ v : Violation, v ∈ t.viol → v ∈ s.viol ∨ v = .unresolved s.cfg.borderAddr) ∧
      (∀ v ∈ s.viol, v ∈ t.viol) ∧ t.draws = s.draws ∧
      t.trace = s.trace ++ [Event.wr s.cfg.borderAddr (borderByte c)] ∧
      t.responses = s.responses ++ [Response.done] ∧
      ∀ b : Address, b ≠ s.cfg.borderAddr → Memory.read t.mem b = Memory.read s.mem b)

/-! ### The reference caller -/

/-- ENTITY_DRAW of an entity whose cell address is valid is the SET_CELL_COLOR of its registers, completes,
and moves `pc` on by 1 (R63, R117); one write event, no entity register written. -/
def Obligations.EntityDrawRepaintsOneCell : Prop :=
  ∀ (s : State) (i : Nat) (e : Entity), s.drawing = none → s.program[s.pc]? = some (.entityDraw i) →
    s.ents[i]? = some e → validAddr s.cfg (cellAddr s.cfg e.x e.y) = true →
    ∃ u : State, exec (.setCellColor e.x e.y e.attr) s.externalTurn = .next u ∧
      step s = .next { u with pc := s.pc + 1 } ∧ u.ents = s.ents ∧
      u.trace = s.externalTurn.trace ++ [Event.wr (cellAddr s.cfg e.x e.y) e.attr]

/-- The update of the driver (R118): `ent[0].y` becomes `(y + 1) mod 24`, no other register changes and no
access is made; `ent[0].y >= 24` is refused with `V_ENTITY`. That the update is a step of its own, after which
the draws follow, is the model's choice (assumption 11). -/
def Obligations.DriverUpdateMovesFirstEntity : Prop :=
  ∀ (s : State) (e : Entity) (es : List Entity), s.drawing = none →
    s.program[s.pc]? = some .driverIteration → s.ents = e :: es →
    (e.y.toNat < 24 → ∃ y' : Coord, y'.toNat = (e.y.toNat + 1) % 24 ∧
      step s = .next { s.externalTurn with ents := ⟨e.x, y', e.attr⟩ :: es, drawing := some 0 }) ∧
    (24 ≤ e.y.toNat → ∃ marks : List Violation, step s = .refused (.violated marks) ∧
      ∀ v : Violation, v ∈ marks ↔ v ∈ s.viol ∨ v = .entity e.y)

/-- The loop's unconditional return sets `pc` and nothing else (R120; the item that spells it is the
model's choice, assumption 21). -/
def Obligations.LoopReturns : Prop :=
  ∀ (s : State) (target : Nat), s.drawing = none → s.program[s.pc]? = some (.goto target) →
    step s = .next { s.externalTurn with pc := target }

/-- One whole DRIVER_ITERATION, whatever the external agent does in between (R119): for `n` entities it takes
`n + 1` steps, moves `ent[0]`, makes exactly `n` accesses, all writes, one per entity in creation order at the
entity's cell, and moves `pc` on by 1; with an idle agent these are the only events. That the iteration is
`n + 1` steps with the agent's turn before each is the model's choice (assumptions 11 and 6). -/
def Obligations.DriverIterationDrawsAllEntities : Prop :=
  ∀ (s : State) (e : Entity) (es : List Entity), s.drawing = none →
    s.program[s.pc]? = some .driverIteration → s.ents = e :: es → e.y.toNat < 24 →
    (∀ a ∈ ({ e with y := nextRow e.y } :: es).map (fun d => cellAddr s.cfg d.x d.y),
      validAddr s.cfg a = true) →
    ∃ t : State, steps (s.ents.length + 1) s = .next t ∧
      t.ents = { e with y := nextRow e.y } :: es ∧ t.pc = s.pc + 1 ∧ t.drawing = none ∧
      t.cfg = s.cfg ∧ t.program = s.program ∧
      blockSites t.trace = blockSites s.trace ++
        ({ e with y := nextRow e.y } :: es).map (fun d => Site.writes (cellAddr s.cfg d.x d.y) d.attr) ∧
      (s.agent = .scripted [] → t.trace = s.trace ++
        ({ e with y := nextRow e.y } :: es).map fun d => Event.wr (cellAddr s.cfg d.x d.y) d.attr)

/-- The driver keeps every entity on the grid (R118): if all entities stand in range, a step leaves them in
range. -/
def Obligations.EntitiesStayOnTheGrid : Prop :=
  ∀ s t : State, step s = .next t → (∀ e ∈ s.ents, e.x.toNat ≤ 31 ∧ e.y.toNat ≤ 23) →
    ∀ e ∈ t.ents, e.x.toNat ≤ 31 ∧ e.y.toNat ≤ 23

/-! ### The whole machine -/

/-- The invariant holds at reset. -/
def Obligations.ResetMeetsInvariant : Prop := State.reset.Inv ∧ State.reset.TraceExplainsMem

/-- Every step keeps the invariant: memory in its canonical form inside the 65536 addresses (R30), `viol` a
set (R21), an iteration in progress draws an existing entity (R119). -/
def Obligations.StepKeepsInvariant : Prop :=
  ∀ s t : State, s.Inv → step s = .next t → t.Inv

/-- Every step keeps memory equal to the replay of the trace: each byte is the latest write to its address
by either agent, the external agent's writes included (R36, R43 (a)). -/
def Obligations.MemoryIsTheTraceReplayed : Prop :=
  ∀ s t : State, s.TraceExplainsMem → step s = .next t → t.TraceExplainsMem

/-- In one step the external agent writes only addresses of `ExtMutable`, then the block makes at most one
access; the trace only grows, and every byte that neither of them writes in the step stays (R41, R43 (e),
R44). That the agent's turn is inside the step, before the access, is the model's choice (assumption 6). -/
def Obligations.OneAccessPerStep : Prop :=
  ∀ s t : State, step s = .next t → ∃ ext blk : List Event,
    t.trace = s.trace ++ ext ++ blk ∧
    (∀ e ∈ ext, ∃ a v, e = .extWr a v ∧ extMutable s.cfg a = true) ∧
    (blk = [] ∨ (∃ a v, blk = [.rd a v]) ∨ (∃ a v, blk = [.wr a v])) ∧
    (∀ a : Address, (∀ v, Event.extWr a v ∉ ext) → (∀ v, blk ≠ [.wr a v]) →
      Memory.read t.mem a = Memory.read s.mem a)

/-- Every access that a step makes is at a valid address (R34). -/
def Obligations.AccessesAreAtValidAddresses : Prop :=
  ∀ s t : State, step s = .next t →
    ∀ site ∈ blockSites (t.trace.drop s.trace.length), validAddr s.cfg site.addr = true

/-- The volatile contract over a sequence (R73): the `Rd` and `Wr` events are exactly one per accessing
operation, in program order, each with the address and, for a write, the value its operation gives, whatever
the external agent does in between: nothing elided, coalesced, reordered or added. -/
def Obligations.VolatileContract : Prop :=
  ∀ (is : List Instr) (s t : State), execAll is s = .next t →
    blockSites t.trace = blockSites s.trace ++ is.filterMap (accessOf s.cfg)

/-- Nothing removes a mark (R133), and the only marks a run goes on with are `V_CELL` and `V_UNRESOLVED`
(R134). -/
def Obligations.MarksAreSticky : Prop :=
  ∀ s t : State, step s = .next t →
    (∀ v ∈ s.viol, v ∈ t.viol) ∧
    (∀ v ∈ t.viol, v ∈ s.viol ∨ (∃ x y, v = .cell x y) ∨ (∃ a, v = .unresolved a))

/-- No operation reads `viol`: the hardware behaves the same whatever it holds (R133). -/
def Obligations.MarksDoNotInfluence : Prop :=
  ∀ (i : Instr) (s t : State) (marks : List Violation), exec i s = .next t →
    ∃ marks' : List Violation, exec i { s with viol := marks } = .next { t with viol := marks' }

/-- The configuration, the operation list, the entities' number, their columns and their attribute bytes
never change during a run (R14, R20, R22). -/
def Obligations.ParametersNeverChange : Prop :=
  ∀ s t : State, step s = .next t →
    t.cfg = s.cfg ∧ t.program = s.program ∧
    t.ents.map (fun e => (e.x, e.attr)) = s.ents.map (fun e => (e.x, e.attr)) ∧
    t.ents.tail = s.ents.tail

/-- "the result of every operation is a function of its operands, of the configuration `cfg`, and (for
REG_READ and PORT_POLL) of the byte that `mem` holds at the moment of the access" (R10): in two states
with the same configuration, and for a read the same known byte and the same free draw, an operation
completes in both or in neither and gives the same response. -/
def Obligations.ResultsDependOnOperandsOnly : Prop :=
  ∀ (i : Instr) (s s' t : State), s'.cfg = s.cfg →
    (∀ a, accessOf s.cfg i = some (.reads a) →
      Memory.read s'.mem a = Memory.read s.mem a ∧ s'.draws = s.draws) →
    exec i s = .next t →
    ∃ (t' : State) (r : Response), exec i s' = .next t' ∧ t.responses = s.responses ++ [r] ∧ t'.responses = s'.responses ++ [r]

/-! ### The draws of an iteration in progress -/

/-- A step inside a DRIVER_ITERATION (R117, R119): with entity `i` to draw next, it completes as the
SET_CELL_COLOR of that entity's registers, one write event, no entity register written; then entity `i + 1`
is next, or, after the last one, the iteration is over and `pc` has moved on by 1. That each draw is a step of
its own, after a turn of the external agent, is the model's choice (assumptions 11 and 6). -/
def Obligations.DriverDrawRepaintsNextEntity : Prop :=
  ∀ (s : State) (i : Nat) (e : Entity), s.drawing = some i → s.ents[i]? = some e →
    validAddr s.cfg (cellAddr s.cfg e.x e.y) = true →
    ∃ u : State, exec (.setCellColor e.x e.y e.attr) s.externalTurn = .next u ∧ u.ents = s.ents ∧
      u.trace = s.externalTurn.trace ++ [Event.wr (cellAddr s.cfg e.x e.y) e.attr] ∧
      (i + 1 < s.ents.length → step s = .next { u with drawing := some (i + 1) }) ∧
      (i + 1 = s.ents.length → step s = .next { u with drawing := none, pc := s.pc + 1 })
end

