-- ==== Sys2Proof/Laws/Decode.lean ====
section
/-! SUPPORT. The decoder: a row that selects a word fixes its operation select, so the decoder finds that
row. -/

namespace Sys2Proof

/-- Every mask keeps bits 31:28, so a selected word carries the row's operation select (R57). -/
theorem selects_opSelect {m : Mnemonic} {w : Word} (h : m.selects w = true) :
    opSelect w = opSelect m.pattern := by
  have h1 : opSelect (w &&& m.mask) = opSelect m.pattern := congrArg opSelect (by simpa [Mnemonic.selects] using h)
  have h2 : opSelect m.mask = BitVec.allOnes 4 := by cases m <;> decide
  rw [← h1, opSelect, opSelect, BitVec.extractLsb'_and]
  rw [opSelect] at h2
  rw [h2, BitVec.and_allOnes]

/-- The nine operation selects are different (R57: the rows "differ in `op`"). -/
theorem opSelect_pattern_injective {m n : Mnemonic} (h : opSelect m.pattern = opSelect n.pattern) :
    m = n := by
  revert h
  cases m <;> cases n <;> decide

/-- The decoder reads a word by the row that selects it (R61). -/
theorem decode_of_selects {m : Mnemonic} {w : Word} (h : m.selects w = true) :
    decode w = .ok (m.operation w) := by
  have hf : Mnemonic.all.find? (fun n => n.selects w) = some m := by
    cases hn : Mnemonic.all.find? (fun n => n.selects w) with
    | none =>
      have := List.find?_eq_none.1 hn m (by cases m <;> decide)
      exact absurd h this
    | some n =>
      have hs : n.selects w = true := by simpa using List.find?_some hn
      rw [opSelect_pattern_injective ((selects_opSelect hs).symm.trans (selects_opSelect h))]
  unfold decode
  rw [hf]

/-- What the decoder accepts is selected by a row (R57, R59). -/
theorem selects_of_decode {w : Word} {i : Instr} (h : decode w = .ok i) :
    ∃ m : Mnemonic, m.selects w = true ∧ m.operation w = i := by
  unfold decode at h
  split at h
  · next m hm => exact ⟨m, by simpa using List.find?_some hm, by injection h⟩
  · cases h

end Sys2Proof
end

