-- ==== Sys2Proof/Laws/Marks.lean ====
section
/-! SUPPORT. The set `viol`: what marking adds, that nothing is removed, and what `checked` answers. -/

namespace Sys2Proof.Machine

theorem mem_addMark {ms : List Violation} {v u : Violation} : u ∈ addMark ms v ↔ u ∈ ms ∨ u = v := by
  unfold addMark
  split
  · next h => exact ⟨.inl, fun g => g.elim id fun e => e ▸ h⟩
  · simp

/-- "All the causes that apply are added" (R135), and nothing else. -/
theorem mem_addMarks {ms cs : List Violation} {u : Violation} :
    u ∈ addMarks ms cs ↔ u ∈ ms ∨ u ∈ cs := by
  induction cs generalizing ms with
  | nil => simp [addMarks]
  | cons c cs ih => rw [addMarks, ih, mem_addMark, List.mem_cons]; tauto

theorem addMark_nodup {ms : List Violation} (h : ms.Nodup) (v : Violation) : (addMark ms v).Nodup := by
  unfold addMark
  split
  · exact h
  · next hv => exact List.nodup_append.2 ⟨h, by simp, by
      intro a ha b hb e
      rw [List.mem_singleton] at hb
      exact hv (hb ▸ e ▸ ha)⟩

/-- Marking keeps `viol` a set (R21). -/
theorem addMarks_nodup {ms : List Violation} (h : ms.Nodup) (cs : List Violation) :
    (addMarks ms cs).Nodup := by
  induction cs generalizing ms with
  | nil => exact h
  | cons c cs ih => exact ih (addMark_nodup h c)

/-- `checked` goes on exactly when no cause is a "refuse" code (R135). -/
theorem checked_next {cs : List Violation} {k : State → Host.Outcome State Fault Refusal} {s t : State}
    (h : checked cs k s = .next t) : (∀ v ∈ cs, v.refuses = false) ∧ k (s.violate cs) = .next t := by
  unfold checked at h
  split at h
  · cases h
  · next hc => exact ⟨fun v hv => by simpa using fun hr => hc (List.any_eq_true.2 ⟨v, hv, hr⟩), h⟩

theorem checked_pass {cs : List Violation} (k : State → Host.Outcome State Fault Refusal) (s : State)
    (h : ∀ v ∈ cs, v.refuses = false) : checked cs k s = k (s.violate cs) := by
  unfold checked
  rw [if_neg]
  intro hc
  obtain ⟨v, hv, hr⟩ := List.any_eq_true.1 hc
  rw [h v hv] at hr
  cases hr

theorem checked_refuse {cs : List Violation} (k : State → Host.Outcome State Fault Refusal) (s : State)
    {v : Violation} (hv : v ∈ cs) (hr : v.refuses = true) :
    checked cs k s = .refused (.violated (addMarks s.viol cs)) := by
  unfold checked
  rw [if_pos (List.any_eq_true.2 ⟨v, hv, hr⟩)]
  rfl

theorem mem_colorCause {c : Nat} {v : Violation} : v ∈ colorCause c ↔ 7 < c ∧ v = .color c := by
  unfold colorCause; split <;> simp <;> omega

theorem mem_cellCause {x y : Coord} {v : Violation} :
    v ∈ cellCause x y ↔ cellInRange x y = false ∧ v = .cell x y := by
  unfold cellCause; split <;> simp_all

theorem mem_unresolvedCause {r : Bool} {a : Address} {v : Violation} :
    v ∈ unresolvedCause r a ↔ r = false ∧ v = .unresolved a := by
  unfold unresolvedCause; split <;> simp_all

theorem mem_addrCause {cfg : Config} {a : Address} {v : Violation} :
    v ∈ addrCause cfg a ↔ validAddr cfg a = false ∧ v = .addr a := by
  unfold addrCause; split <;> simp_all

theorem mem_entityCause {y : Coord} {v : Violation} : v ∈ entityCause y ↔ 24 ≤ y.toNat ∧ v = .entity y := by
  unfold entityCause; split <;> simp <;> omega

end Sys2Proof.Machine
end

