-- ==== Sys2Proof/Laws/State.lean ====
section
/-! SUPPORT. One lemma per field of `State` and update operation of the machine: what the update writes and
what it leaves alone. -/

namespace Sys2Proof.Machine

@[simp] theorem State.recordRead_cfg (s : State) (a : Address) (v : Byte) :
    (s.recordRead a v).cfg = s.cfg := rfl
@[simp] theorem State.recordRead_mem (s : State) (a : Address) (v : Byte) :
    (s.recordRead a v).mem = s.mem := rfl
@[simp] theorem State.recordRead_trace (s : State) (a : Address) (v : Byte) :
    (s.recordRead a v).trace = s.trace ++ [.rd a v] := rfl
@[simp] theorem State.recordRead_viol (s : State) (a : Address) (v : Byte) :
    (s.recordRead a v).viol = s.viol := rfl
@[simp] theorem State.recordRead_ents (s : State) (a : Address) (v : Byte) :
    (s.recordRead a v).ents = s.ents := rfl
@[simp] theorem State.recordRead_program (s : State) (a : Address) (v : Byte) :
    (s.recordRead a v).program = s.program := rfl
@[simp] theorem State.recordRead_pc (s : State) (a : Address) (v : Byte) :
    (s.recordRead a v).pc = s.pc := rfl
@[simp] theorem State.recordRead_drawing (s : State) (a : Address) (v : Byte) :
    (s.recordRead a v).drawing = s.drawing := rfl
@[simp] theorem State.recordRead_responses (s : State) (a : Address) (v : Byte) :
    (s.recordRead a v).responses = s.responses := rfl
@[simp] theorem State.recordRead_names (s : State) (a : Address) (v : Byte) :
    (s.recordRead a v).names = s.names := rfl
@[simp] theorem State.recordRead_agent (s : State) (a : Address) (v : Byte) :
    (s.recordRead a v).agent = s.agent := rfl
@[simp] theorem State.recordRead_draws (s : State) (a : Address) (v : Byte) :
    (s.recordRead a v).draws = s.draws + 1 := rfl

@[simp] theorem State.memWrite_cfg (s : State) (a : Address) (v : Byte) :
    (s.memWrite a v).cfg = s.cfg := rfl
@[simp] theorem State.memWrite_mem (s : State) (a : Address) (v : Byte) :
    (s.memWrite a v).mem = Memory.write s.mem a v := rfl
@[simp] theorem State.memWrite_trace (s : State) (a : Address) (v : Byte) :
    (s.memWrite a v).trace = s.trace ++ [.wr a v] := rfl
@[simp] theorem State.memWrite_viol (s : State) (a : Address) (v : Byte) :
    (s.memWrite a v).viol = s.viol := rfl
@[simp] theorem State.memWrite_ents (s : State) (a : Address) (v : Byte) :
    (s.memWrite a v).ents = s.ents := rfl
@[simp] theorem State.memWrite_program (s : State) (a : Address) (v : Byte) :
    (s.memWrite a v).program = s.program := rfl
@[simp] theorem State.memWrite_pc (s : State) (a : Address) (v : Byte) :
    (s.memWrite a v).pc = s.pc := rfl
@[simp] theorem State.memWrite_drawing (s : State) (a : Address) (v : Byte) :
    (s.memWrite a v).drawing = s.drawing := rfl
@[simp] theorem State.memWrite_responses (s : State) (a : Address) (v : Byte) :
    (s.memWrite a v).responses = s.responses := rfl
@[simp] theorem State.memWrite_names (s : State) (a : Address) (v : Byte) :
    (s.memWrite a v).names = s.names := rfl
@[simp] theorem State.memWrite_agent (s : State) (a : Address) (v : Byte) :
    (s.memWrite a v).agent = s.agent := rfl
@[simp] theorem State.memWrite_draws (s : State) (a : Address) (v : Byte) :
    (s.memWrite a v).draws = s.draws := rfl

@[simp] theorem State.respond_cfg (s : State) (r : Response) :
    (s.respond r).cfg = s.cfg := rfl
@[simp] theorem State.respond_mem (s : State) (r : Response) :
    (s.respond r).mem = s.mem := rfl
@[simp] theorem State.respond_trace (s : State) (r : Response) :
    (s.respond r).trace = s.trace := rfl
@[simp] theorem State.respond_viol (s : State) (r : Response) :
    (s.respond r).viol = s.viol := rfl
@[simp] theorem State.respond_ents (s : State) (r : Response) :
    (s.respond r).ents = s.ents := rfl
@[simp] theorem State.respond_program (s : State) (r : Response) :
    (s.respond r).program = s.program := rfl
@[simp] theorem State.respond_pc (s : State) (r : Response) :
    (s.respond r).pc = s.pc := rfl
@[simp] theorem State.respond_drawing (s : State) (r : Response) :
    (s.respond r).drawing = s.drawing := rfl
@[simp] theorem State.respond_responses (s : State) (r : Response) :
    (s.respond r).responses = s.responses ++ [r] := rfl
@[simp] theorem State.respond_names (s : State) (r : Response) :
    (s.respond r).names = s.names := rfl
@[simp] theorem State.respond_agent (s : State) (r : Response) :
    (s.respond r).agent = s.agent := rfl
@[simp] theorem State.respond_draws (s : State) (r : Response) :
    (s.respond r).draws = s.draws := rfl

@[simp] theorem State.advance_cfg (s : State) :
    (s.advance).cfg = s.cfg := rfl
@[simp] theorem State.advance_mem (s : State) :
    (s.advance).mem = s.mem := rfl
@[simp] theorem State.advance_trace (s : State) :
    (s.advance).trace = s.trace := rfl
@[simp] theorem State.advance_viol (s : State) :
    (s.advance).viol = s.viol := rfl
@[simp] theorem State.advance_ents (s : State) :
    (s.advance).ents = s.ents := rfl
@[simp] theorem State.advance_program (s : State) :
    (s.advance).program = s.program := rfl
@[simp] theorem State.advance_pc (s : State) :
    (s.advance).pc = s.pc + 1 := rfl
@[simp] theorem State.advance_drawing (s : State) :
    (s.advance).drawing = s.drawing := rfl
@[simp] theorem State.advance_responses (s : State) :
    (s.advance).responses = s.responses := rfl
@[simp] theorem State.advance_names (s : State) :
    (s.advance).names = s.names := rfl
@[simp] theorem State.advance_agent (s : State) :
    (s.advance).agent = s.agent := rfl
@[simp] theorem State.advance_draws (s : State) :
    (s.advance).draws = s.draws := rfl

@[simp] theorem State.violate_cfg (s : State) (cs : List Violation) :
    (s.violate cs).cfg = s.cfg := rfl
@[simp] theorem State.violate_mem (s : State) (cs : List Violation) :
    (s.violate cs).mem = s.mem := rfl
@[simp] theorem State.violate_trace (s : State) (cs : List Violation) :
    (s.violate cs).trace = s.trace := rfl
@[simp] theorem State.violate_viol (s : State) (cs : List Violation) :
    (s.violate cs).viol = addMarks s.viol cs := rfl
@[simp] theorem State.violate_ents (s : State) (cs : List Violation) :
    (s.violate cs).ents = s.ents := rfl
@[simp] theorem State.violate_program (s : State) (cs : List Violation) :
    (s.violate cs).program = s.program := rfl
@[simp] theorem State.violate_pc (s : State) (cs : List Violation) :
    (s.violate cs).pc = s.pc := rfl
@[simp] theorem State.violate_drawing (s : State) (cs : List Violation) :
    (s.violate cs).drawing = s.drawing := rfl
@[simp] theorem State.violate_responses (s : State) (cs : List Violation) :
    (s.violate cs).responses = s.responses := rfl
@[simp] theorem State.violate_names (s : State) (cs : List Violation) :
    (s.violate cs).names = s.names := rfl
@[simp] theorem State.violate_agent (s : State) (cs : List Violation) :
    (s.violate cs).agent = s.agent := rfl
@[simp] theorem State.violate_draws (s : State) (cs : List Violation) :
    (s.violate cs).draws = s.draws := rfl

@[simp] theorem State.externalTurn_cfg (s : State) :
    (s.externalTurn).cfg = s.cfg := rfl
@[simp] theorem State.externalTurn_mem (s : State) :
    (s.externalTurn).mem = applyExt s.mem s.extWrites := rfl
@[simp] theorem State.externalTurn_trace (s : State) :
    (s.externalTurn).trace = s.trace ++ s.extWrites.map fun e => .extWr e.addr e.value := rfl
@[simp] theorem State.externalTurn_viol (s : State) :
    (s.externalTurn).viol = s.viol := rfl
@[simp] theorem State.externalTurn_ents (s : State) :
    (s.externalTurn).ents = s.ents := rfl
@[simp] theorem State.externalTurn_program (s : State) :
    (s.externalTurn).program = s.program := rfl
@[simp] theorem State.externalTurn_pc (s : State) :
    (s.externalTurn).pc = s.pc := rfl
@[simp] theorem State.externalTurn_drawing (s : State) :
    (s.externalTurn).drawing = s.drawing := rfl
@[simp] theorem State.externalTurn_responses (s : State) :
    (s.externalTurn).responses = s.responses := rfl
@[simp] theorem State.externalTurn_names (s : State) :
    (s.externalTurn).names = s.names := rfl
@[simp] theorem State.externalTurn_agent (s : State) :
    (s.externalTurn).agent = s.agent.rest := rfl
@[simp] theorem State.externalTurn_draws (s : State) :
    (s.externalTurn).draws = s.draws + 1 := rfl

@[simp] theorem State.bindResult_cfg (s : State) (id : Option String) :
    (s.bindResult id).cfg = s.cfg := by
  unfold State.bindResult; split <;> rfl
@[simp] theorem State.bindResult_mem (s : State) (id : Option String) :
    (s.bindResult id).mem = s.mem := by
  unfold State.bindResult; split <;> rfl
@[simp] theorem State.bindResult_trace (s : State) (id : Option String) :
    (s.bindResult id).trace = s.trace := by
  unfold State.bindResult; split <;> rfl
@[simp] theorem State.bindResult_viol (s : State) (id : Option String) :
    (s.bindResult id).viol = s.viol := by
  unfold State.bindResult; split <;> rfl
@[simp] theorem State.bindResult_ents (s : State) (id : Option String) :
    (s.bindResult id).ents = s.ents := by
  unfold State.bindResult; split <;> rfl
@[simp] theorem State.bindResult_program (s : State) (id : Option String) :
    (s.bindResult id).program = s.program := by
  unfold State.bindResult; split <;> rfl
@[simp] theorem State.bindResult_pc (s : State) (id : Option String) :
    (s.bindResult id).pc = s.pc := by
  unfold State.bindResult; split <;> rfl
@[simp] theorem State.bindResult_drawing (s : State) (id : Option String) :
    (s.bindResult id).drawing = s.drawing := by
  unfold State.bindResult; split <;> rfl
@[simp] theorem State.bindResult_responses (s : State) (id : Option String) :
    (s.bindResult id).responses = s.responses := by
  unfold State.bindResult; split <;> rfl
@[simp] theorem State.bindResult_agent (s : State) (id : Option String) :
    (s.bindResult id).agent = s.agent := by
  unfold State.bindResult; split <;> rfl
@[simp] theorem State.bindResult_draws (s : State) (id : Option String) :
    (s.bindResult id).draws = s.draws := by
  unfold State.bindResult; split <;> rfl

@[simp] theorem placeWord_cfg (s : State) (w : Word) :
    (placeWord w s).cfg = s.cfg := rfl
@[simp] theorem placeWord_mem (s : State) (w : Word) :
    (placeWord w s).mem = s.mem := rfl
@[simp] theorem placeWord_trace (s : State) (w : Word) :
    (placeWord w s).trace = s.trace := rfl
@[simp] theorem placeWord_viol (s : State) (w : Word) :
    (placeWord w s).viol = s.viol := rfl
@[simp] theorem placeWord_ents (s : State) (w : Word) :
    (placeWord w s).ents = s.ents := rfl
@[simp] theorem placeWord_pc (s : State) (w : Word) :
    (placeWord w s).pc = s.pc := rfl
@[simp] theorem placeWord_responses (s : State) (w : Word) :
    (placeWord w s).responses = s.responses := rfl
@[simp] theorem placeWord_names (s : State) (w : Word) :
    (placeWord w s).names = s.names := rfl
@[simp] theorem placeWord_agent (s : State) (w : Word) :
    (placeWord w s).agent = s.agent := rfl
@[simp] theorem placeWord_draws (s : State) (w : Word) :
    (placeWord w s).draws = s.draws := rfl

@[simp] theorem afterDraw_cfg (i : Nat) (s : State) :
    (afterDraw i s).cfg = s.cfg := by
  unfold afterDraw; split <;> rfl
@[simp] theorem afterDraw_mem (i : Nat) (s : State) :
    (afterDraw i s).mem = s.mem := by
  unfold afterDraw; split <;> rfl
@[simp] theorem afterDraw_trace (i : Nat) (s : State) :
    (afterDraw i s).trace = s.trace := by
  unfold afterDraw; split <;> rfl
@[simp] theorem afterDraw_viol (i : Nat) (s : State) :
    (afterDraw i s).viol = s.viol := by
  unfold afterDraw; split <;> rfl
@[simp] theorem afterDraw_ents (i : Nat) (s : State) :
    (afterDraw i s).ents = s.ents := by
  unfold afterDraw; split <;> rfl
@[simp] theorem afterDraw_program (i : Nat) (s : State) :
    (afterDraw i s).program = s.program := by
  unfold afterDraw; split <;> rfl
@[simp] theorem afterDraw_responses (i : Nat) (s : State) :
    (afterDraw i s).responses = s.responses := by
  unfold afterDraw; split <;> rfl
@[simp] theorem afterDraw_names (i : Nat) (s : State) :
    (afterDraw i s).names = s.names := by
  unfold afterDraw; split <;> rfl
@[simp] theorem afterDraw_agent (i : Nat) (s : State) :
    (afterDraw i s).agent = s.agent := by
  unfold afterDraw; split <;> rfl
@[simp] theorem afterDraw_draws (i : Nat) (s : State) :
    (afterDraw i s).draws = s.draws := by
  unfold afterDraw; split <;> rfl

@[simp] theorem placeWord_drawing (s : State) (w : Word) : (placeWord w s).drawing = none := rfl

/-- Marking with no cause changes nothing. -/
@[simp] theorem State.violate_nil (s : State) : s.violate [] = s := rfl

/-- The next item after `placeWord` is the word placed. -/
theorem placeWord_next (w : Word) (s : State) :
    (placeWord w s).program[(placeWord w s).pc]? = some (.word w) := by
  have hl : (s.program.take s.pc ++ List.replicate (s.pc - s.program.length) (Request.goto 0)).length
      = s.pc := by
    simp; omega
  simp only [placeWord]
  rw [List.getElem?_append_right (by omega), hl]
  simp

end Sys2Proof.Machine
end

