-- ==== Sys2Proof/Laws/Exec.lean ====
section
/-! SUPPORT. What one operation can do when it completes, said once. -/

namespace Sys2Proof.Machine

@[simp] theorem exec_regRead (a : Address) (s : State) : exec (.regRead a) s = execRegRead a s := rfl
@[simp] theorem exec_regWrite (a : Address) (d : Byte) (s : State) :
    exec (.regWrite a d) s = execRegWrite a d s := rfl
@[simp] theorem exec_attrEncode (ink paper : Nat) (bright flash : Bool) (s : State) :
    exec (.attrEncode ink paper bright flash) s = execAttrEncode ink paper bright flash s := rfl
@[simp] theorem exec_attrDecode (b : Byte) (s : State) : exec (.attrDecode b) s = execAttrDecode b s := rfl
@[simp] theorem exec_portDecode (b : Byte) (s : State) : exec (.portDecode b) s = execPortDecode b s := rfl
@[simp] theorem exec_portPoll (s : State) : exec .portPoll s = execPortPoll s := rfl
@[simp] theorem exec_cellAddress (x y : Coord) (s : State) :
    exec (.cellAddress x y) s = execCellAddress x y s := rfl
@[simp] theorem exec_setCellColor (x y : Coord) (attr : Byte) (s : State) :
    exec (.setCellColor x y attr) s = execSetCellColor x y attr s := rfl
@[simp] theorem exec_setBorder (c : Nat) (s : State) : exec (.setBorder c) s = execSetBorder c s := rfl

/-- A completed operation marks causes that do not refuse and then does one of three things: answers
without an access, makes its one read, or makes its one write (R41). -/
theorem exec_cases {i : Instr} {s t : State} (h : exec i s = .next t) :
    ∃ cs : List Violation, (∀ v ∈ cs, v.refuses = false) ∧
      ((∃ r, accessOf s.cfg i = none ∧ t = (s.violate cs).respond r) ∨
       (∃ a v, accessOf s.cfg i = some (.reads a) ∧
          t = ((s.violate cs).recordRead a v).respond (.byte v)) ∨
       (∃ a v, accessOf s.cfg i = some (.writes a v) ∧ t = ((s.violate cs).memWrite a v).respond .done)) := by
  cases i with
  | regRead a =>
    dsimp only [exec, execRegRead] at h
    obtain ⟨hc, hk⟩ := checked_next h
    exact ⟨_, hc, .inr (.inl ⟨a, _, rfl, (Host.Outcome.next.inj hk).symm⟩)⟩
  | regWrite a d =>
    dsimp only [exec, execRegWrite] at h
    obtain ⟨hc, hk⟩ := checked_next h
    exact ⟨_, hc, .inr (.inr ⟨a, d, rfl, (Host.Outcome.next.inj hk).symm⟩)⟩
  | attrEncode ink paper bright flash =>
    dsimp only [exec, execAttrEncode] at h
    obtain ⟨hc, hk⟩ := checked_next h
    exact ⟨_, hc, .inl ⟨_, rfl, (Host.Outcome.next.inj hk).symm⟩⟩
  | attrDecode b => exact ⟨[], by simp, .inl ⟨_, rfl, (Host.Outcome.next.inj h).symm⟩⟩
  | portDecode b => exact ⟨[], by simp, .inl ⟨_, rfl, (Host.Outcome.next.inj h).symm⟩⟩
  | portPoll =>
    dsimp only [exec, execPortPoll] at h
    obtain ⟨hc, hk⟩ := checked_next h
    exact ⟨_, hc, .inr (.inl ⟨s.cfg.inputPortAddr, _, rfl, (Host.Outcome.next.inj hk).symm⟩)⟩
  | cellAddress x y => exact ⟨[], by simp, .inl ⟨_, rfl, (Host.Outcome.next.inj h).symm⟩⟩
  | setCellColor x y attr =>
    dsimp only [exec, execSetCellColor] at h
    obtain ⟨hc, hk⟩ := checked_next h
    exact ⟨_, hc, .inr (.inr ⟨cellAddr s.cfg x y, attr, rfl, (Host.Outcome.next.inj hk).symm⟩)⟩
  | setBorder c =>
    dsimp only [exec, execSetBorder] at h
    obtain ⟨hc, hk⟩ := checked_next h
    exact ⟨_, hc, .inr (.inr ⟨s.cfg.borderAddr, borderByte c, rfl, (Host.Outcome.next.inj hk).symm⟩)⟩

/-- A completed operation adds its one response (R58). -/
theorem exec_responds {i : Instr} {s t : State} (h : exec i s = .next t) :
    ∃ r, t.responses = s.responses ++ [r] := by
  obtain ⟨cs, -, ⟨r, -, rfl⟩ | ⟨a, v, -, rfl⟩ | ⟨a, v, -, rfl⟩⟩ := exec_cases h <;> exact ⟨_, by simp; rfl⟩

/-- What no operation touches: the configuration, the caller's registers and list, the agent. -/
theorem exec_keeps {i : Instr} {s t : State} (h : exec i s = .next t) :
    t.cfg = s.cfg ∧ t.ents = s.ents ∧ t.program = s.program ∧ t.pc = s.pc ∧ t.drawing = s.drawing ∧
      t.names = s.names ∧ t.agent = s.agent := by
  obtain ⟨cs, -, ⟨r, -, rfl⟩ | ⟨a, v, -, rfl⟩ | ⟨a, v, -, rfl⟩⟩ := exec_cases h <;> simp

end Sys2Proof.Machine
end

