-- ==== Sys2Proof/Laws/Memory.lean ====
section
/-! SUPPORT. Memory: a read after a write, the canonical form, and what the external agent's writes do. -/

namespace Sys2Proof.Machine

/-- Equal address numbers are equal addresses. -/
theorem toNat_eq_iff (a b : Address) : a.toNat = b.toNat ↔ a = b :=
  ⟨fun h => BitVec.eq_of_toNat_eq h, fun h => h ▸ rfl⟩

@[simp] theorem Memory.read_write_same (m : Memory) (a : Address) (v : Byte) :
    Memory.read (Memory.write m a v) a = some v := by
  induction m with
  | nil => simp [Memory.write, Memory.read]
  | cons c m ih =>
    obtain ⟨k, w⟩ := c
    unfold Memory.write
    split
    · simp [Memory.read]
    · split <;> simp_all [Memory.read, eq_comm]

theorem Memory.read_write_other (m : Memory) {a b : Address} (v : Byte) (h : b ≠ a) :
    Memory.read (Memory.write m a v) b = Memory.read m b := by
  have hab : a.toNat ≠ b.toNat := fun e => h (BitVec.eq_of_toNat_eq e.symm)
  induction m with
  | nil => simp [Memory.write, Memory.read, hab]
  | cons c m ih =>
    obtain ⟨k, w⟩ := c
    unfold Memory.write
    split
    · simp [Memory.read, hab]
    · split
      · next hk => subst hk; simp [Memory.read, hab]
      · simp only [Memory.read, ih]

/-- Reading any address after a write. -/
theorem Memory.read_write (m : Memory) (a b : Address) (v : Byte) :
    Memory.read (Memory.write m a v) b = if b = a then some v else Memory.read m b := by
  split
  · next h => subst h; simp
  · next h => exact Memory.read_write_other m v h

/-- Where the entries of a written memory come from. -/
theorem Memory.mem_write {m : Memory} {a : Address} {v : Byte} {c : Host.Cell}
    (h : c ∈ Memory.write m a v) : c = (a.toNat, v) ∨ c ∈ m := by
  induction m with
  | nil => simpa [Memory.write] using h
  | cons d m ih =>
    obtain ⟨k, w⟩ := d
    unfold Memory.write at h
    split at h
    · simpa using h
    · split at h
      · next hk => subst hk; simp at h ⊢; tauto
      · simp only [List.mem_cons] at h ⊢
        rcases h with h | h
        · exact .inr (.inl h)
        · exact (ih h).imp id .inr

/-- A write keeps the canonical form. -/
theorem Memory.write_wf {m : Memory} (h : Memory.wf m) (a : Address) (v : Byte) :
    Memory.wf (Memory.write m a v) := by
  refine ⟨?_, fun c hc => ?_⟩
  · induction m with
    | nil => simp [Memory.write]
    | cons c m ih =>
      obtain ⟨k, w⟩ := c
      obtain ⟨h1, h2⟩ := h
      rw [List.pairwise_cons] at h1
      unfold Memory.write
      split
      · next hk =>
        rw [List.pairwise_cons]
        refine ⟨fun d hd => ?_, List.pairwise_cons.2 h1⟩
        rcases List.mem_cons.1 hd with rfl | hd
        · exact hk
        · exact Nat.lt_trans hk (h1.1 d hd)
      · split
        · exact List.pairwise_cons.2 h1
        · next hk hk' =>
          rw [List.pairwise_cons]
          refine ⟨fun d hd => ?_, ih ⟨h1.2, fun d hd => h2 d (List.mem_cons_of_mem _ hd)⟩⟩
          rcases Memory.mem_write hd with rfl | hd
          · show k < a.toNat
            omega
          · exact h1.1 d hd
  · rcases Memory.mem_write hc with rfl | hc
    · exact a.isLt
    · exact h.2 c hc

/-- The external agent's writes keep the canonical form. -/
theorem applyExt_wf {m : Memory} (h : Memory.wf m) (es : List ExtWrite) : Memory.wf (applyExt m es) := by
  induction es generalizing m with
  | nil => exact h
  | cons e es ih => exact ih (Memory.write_wf h e.addr e.value)

/-- The external agent's writes change no other address. -/
theorem read_applyExt_other (m : Memory) (es : List ExtWrite) (a : Address)
    (h : ∀ e ∈ es, e.addr ≠ a) : Memory.read (applyExt m es) a = Memory.read m a := by
  induction es generalizing m with
  | nil => rfl
  | cons e es ih =>
    rw [applyExt, ih _ fun d hd => h d (List.mem_cons_of_mem _ hd),
      Memory.read_write_other _ _ (h e List.mem_cons_self).symm]

/-- Of a list of the external agent's writes, the latest to an address is the byte it then holds. -/
theorem read_applyExt_latest (m : Memory) (before later : List ExtWrite) (e : ExtWrite)
    (h : ∀ d ∈ later, d.addr ≠ e.addr) :
    Memory.read (applyExt m (before ++ e :: later)) e.addr = some e.value := by
  induction before generalizing m with
  | nil => rw [List.nil_append, applyExt, read_applyExt_other _ _ _ h, Memory.read_write_same]
  | cons d ds ih => exact ih _

/-- The external agent writes only addresses of `ExtMutable` (R44). -/
theorem extWrites_mutable {s : State} {e : ExtWrite} (h : e ∈ s.extWrites) :
    extMutable s.cfg e.addr = true := (List.mem_filter.1 h).2

/-- An address that no event of the external agent's turn names keeps its byte (R44). -/
theorem externalTurn_read_of_not_written (s : State) (a : Address)
    (h : ∀ v, Event.extWr a v ∉ s.extWrites.map fun e => Event.extWr e.addr e.value) :
    Memory.read s.externalTurn.mem a = Memory.read s.mem a :=
  read_applyExt_other s.mem s.extWrites a fun e he hea =>
    h e.value (List.mem_map.2 ⟨e, he, by rw [hea]⟩)

/-- An address outside `ExtMutable` keeps its byte over the external agent's turn (R44). -/
theorem externalTurn_read_of_not_mutable (s : State) (a : Address) (h : extMutable s.cfg a = false) :
    Memory.read s.externalTurn.mem a = Memory.read s.mem a :=
  read_applyExt_other s.mem s.extWrites a fun e he hea => by
    have := extWrites_mutable he
    rw [hea, h] at this
    cases this

end Sys2Proof.Machine
end

