-- ==== Sys2Proof/Laws/PerInstr.lean ====
section
/-! SUPPORT. Statements about every operation as syntax, one lemma per constructor: the word of an
operation fits its own row of the opcode table (spec/30_encoding.md rules R56 and R57). -/

namespace Sys2Proof.Laws.FitsRow

/-- The encoded word selects the row of its own mnemonic: `op` and every bit outside the format are as
the row's `match` and `mask` say. -/
def Statement (i : Instr) : Prop := i.mnemonic.selects (encode i) = true

/-- Two words are equal when their 32 bits are. -/
theorem fits {m : Mnemonic} {w : Word} (h : ∀ i : Nat, (hi : i < 32) → (w &&& m.mask)[i] = m.pattern[i]) :
    m.selects w = true := by
  simp only [Mnemonic.selects, beq_iff_eq]
  exact BitVec.eq_of_getElem_eq h

theorem regRead (addr : Address) : Statement (.regRead addr) := by
  refine fits fun i hi => ?_
  interval_cases i <;> simp [encode, place, Mnemonic.mask, Mnemonic.pattern, Instr.mnemonic]

theorem regWrite (addr : Address) (data : Byte) : Statement (.regWrite addr data) := by
  refine fits fun i hi => ?_
  interval_cases i <;> simp [encode, place, Mnemonic.mask, Mnemonic.pattern, Instr.mnemonic]

theorem attrEncode (ink paper : Nat) (bright flash : Bool) :
    Statement (.attrEncode ink paper bright flash) := by
  refine fits fun i hi => ?_
  interval_cases i <;> simp [encode, place, Mnemonic.mask, Mnemonic.pattern, Instr.mnemonic]

theorem attrDecode (byte : Byte) : Statement (.attrDecode byte) := by
  refine fits fun i hi => ?_
  interval_cases i <;> simp [encode, place, Mnemonic.mask, Mnemonic.pattern, Instr.mnemonic]

theorem portDecode (byte : Byte) : Statement (.portDecode byte) := by
  refine fits fun i hi => ?_
  interval_cases i <;> simp [encode, place, Mnemonic.mask, Mnemonic.pattern, Instr.mnemonic]

theorem portPoll : Statement .portPoll := rfl

theorem cellAddress (x y : Coord) : Statement (.cellAddress x y) := by
  refine fits fun i hi => ?_
  interval_cases i <;> simp [encode, place, Mnemonic.mask, Mnemonic.pattern, Instr.mnemonic]

theorem setCellColor (x y : Coord) (attr : Byte) : Statement (.setCellColor x y attr) := by
  refine fits fun i hi => ?_
  interval_cases i <;> simp [encode, place, Mnemonic.mask, Mnemonic.pattern, Instr.mnemonic]

theorem setBorder (color : Nat) : Statement (.setBorder color) := by
  refine fits fun i hi => ?_
  interval_cases i <;> simp [encode, place, Mnemonic.mask, Mnemonic.pattern, Instr.mnemonic]

end Sys2Proof.Laws.FitsRow
end

