-- ==== Sys2Proof/Laws/Step.lean ====
section
/-! SUPPORT. What one step can do when it answers a next state, said once. -/

namespace Sys2Proof.Machine

theorem andThen_next {o : Host.Outcome State Fault Refusal} {f : State → Host.Outcome State Fault Refusal}
    {t : State} (h : andThen o f = .next t) : ∃ u, o = .next u ∧ f u = .next t := by
  cases o with
  | next u => exact ⟨u, rfl, h⟩
  | fault r => cases r
  | refused r => cases h

/-- A requester's step that answers a next state has nothing left to issue, sets `pc` (the loop), makes
the driver's update, or completes ONE operation of the block and then moves the requester on, touching
only `pc`, `drawing` and the bound names. -/
theorem requesterStep_cases {s t : State} (h : requesterStep s = .next t) :
    t = s ∨ (∃ target, t = { s with pc := target }) ∨
    (∃ e es, s.ents = e :: es ∧ e.y.toNat < 24 ∧
      t = { s with ents := { e with y := nextRow e.y } :: es, drawing := some 0 }) ∨
    (∃ i u, exec i s = .next u ∧ ∃ pc drawing names,
      t = { u with pc := pc, drawing := drawing, names := names } ∧
        ∀ j, drawing = some j → u.drawing = some j ∨ j < u.ents.length) := by
  have hdraw : ∀ {i : Nat} {u : State}, drawEntity i s = .next u → ∃ j, exec j s = .next u := by
    intro i u hu
    unfold drawEntity at hu
    split at hu
    · exact ⟨_, hu⟩
    · cases hu
  unfold requesterStep at h
  split at h
  · next i hi =>
    obtain ⟨u, hu, ht⟩ := andThen_next h
    obtain ⟨j, hj⟩ := hdraw hu
    injection ht with ht
    subst ht
    refine .inr (.inr (.inr ⟨j, u, hj, ?_⟩))
    unfold afterDraw
    split
    · next hl => exact ⟨u.pc, some (i + 1), u.names, rfl, fun k hk => by cases hk; exact .inr hl⟩
    · exact ⟨u.pc + 1, none, u.names, rfl, fun k hk => by cases hk⟩
  · split at h
    · next r hr =>
      cases r with
      | word w =>
        simp only [issue, issueWord] at h
        split at h
        · next i hi =>
          obtain ⟨u, hu, ht⟩ := andThen_next h
          injection ht with ht
          subst ht
          exact .inr (.inr (.inr ⟨i, u, hu, u.pc + 1, u.drawing, u.names, rfl, fun _ hj => .inl hj⟩))
        · cases h
      | call c =>
        simp only [issue, issueCall] at h
        split at h
        · next i hi =>
          obtain ⟨u, hu, ht⟩ := andThen_next h
          injection ht with ht
          subst ht
          refine .inr (.inr (.inr ⟨i, u, hu, u.pc + 1, u.drawing, (u.bindResult c.bind).names, ?_,
            fun _ hj => .inl hj⟩))
          unfold State.bindResult State.advance
          split <;> rfl
        · cases h
      | entityDraw i =>
        obtain ⟨u, hu, ht⟩ := andThen_next h
        obtain ⟨j, hj⟩ := hdraw hu
        injection ht with ht
        subst ht
        exact .inr (.inr (.inr ⟨j, u, hj, u.pc + 1, u.drawing, u.names, rfl, fun _ hk => .inl hk⟩))
      | driverIteration =>
        simp only [issue, driverUpdate] at h
        split at h
        · cases h
        · next e es he =>
          obtain ⟨hc, hk⟩ := checked_next h
          injection hk with hk
          have hy : e.y.toNat < 24 := by
            by_contra hy
            have := hc _ (mem_entityCause.2 ⟨by omega, rfl⟩)
            cases this
          refine .inr (.inr (.inl ⟨e, es, he, hy, ?_⟩))
          rw [← hk, show entityCause e.y = [] by simp [entityCause, hy]]
          rfl
      | goto target =>
        injection h with h
        exact .inr (.inl ⟨target, h.symm⟩)
    · injection h with h
      exact .inl h.symm

/-- A step is the external agent's turn and then one step of the requester. -/
theorem step_def (s : State) : step s = requesterStep s.externalTurn := rfl

/-- A step that answers a next state is the first of several. -/
theorem steps_succ {n : Nat} {s u : State} (h : step s = .next u) : steps (n + 1) s = steps n u := by
  rw [steps, h, andThen]

/-- The turn of an agent whose script is used up changes only the draw counter. -/
theorem externalTurn_idle {s : State} (h : s.agent = .scripted []) :
    s.externalTurn = { s with draws := s.draws + 1 } := by
  have he : s.extWrites = [] := by simp [State.extWrites, State.extAttempts, h]
  simp [State.externalTurn, he, applyExt, h, ExtAgent.rest]

end Sys2Proof.Machine
end

