-- ==== Sys2Proof/Machine/TextParse.lean ====
section
/-! DEFINITION. Reading the text form of a program (spec/30_encoding.md rules R62 and R63): "Numbers are
decimal, or `0x` hexadecimal, or `0b` binary; a Color may be written by name (`GREEN`) or number; a bool as
`true`/`false` or 1/0", `-> name` binds a result. What the operands mean is in Machine/TextForm.lean. -/

namespace Sys2Proof.Machine

/-- The spelling of a mnemonic (R4, R62). -/
def mnemonicText : Mnemonic → String
  | .REG_READ => "REG_READ"
  | .REG_WRITE => "REG_WRITE"
  | .ATTR_ENCODE => "ATTR_ENCODE"
  | .ATTR_DECODE => "ATTR_DECODE"
  | .PORT_DECODE => "PORT_DECODE"
  | .PORT_POLL => "PORT_POLL"
  | .CELL_ADDRESS => "CELL_ADDRESS"
  | .SET_CELL_COLOR => "SET_CELL_COLOR"
  | .SET_BORDER => "SET_BORDER"

/-- The mnemonic a word spells. -/
def mnemonicOf (w : String) : Option Mnemonic := Mnemonic.all.find? fun m => mnemonicText m == w

/-- The names of the eight Colors (R8). -/
def colorNames : List (String × Color) :=
  [("BLACK", Color.black), ("BLUE", Color.blue), ("RED", Color.red), ("MAGENTA", Color.magenta),
   ("GREEN", Color.green), ("CYAN", Color.cyan), ("YELLOW", Color.yellow), ("WHITE", Color.white)]

/-- The words of a line: what stands between blanks and commas, `cur` being the word begun. -/
def wordsOf (cur : List Char) : List Char → List String
  | [] => if cur = [] then [] else [String.ofList cur]
  | c :: cs =>
      if c = ' ' ∨ c = ',' then (if cur = [] then [] else [String.ofList cur]) ++ wordsOf [] cs
      else wordsOf (cur ++ [c]) cs

/-- The value of a digit. -/
def digitValue (c : Char) : Option Nat :=
  if '0' ≤ c ∧ c ≤ '9' then some (c.toNat - '0'.toNat)
  else if 'a' ≤ c ∧ c ≤ 'f' then some (c.toNat - 'a'.toNat + 10)
  else if 'A' ≤ c ∧ c ≤ 'F' then some (c.toNat - 'A'.toNat + 10)
  else none

/-- Digits of a base read from left to right, `n` being the value of those already read. -/
def digitsValue (base n : Nat) : List Char → Option Nat
  | [] => some n
  | c :: cs =>
      match digitValue c with
      | some d => if d < base then digitsValue base (n * base + d) cs else none
      | none => none

/-- An operand (R62): a word that begins with a digit is a number; `true`, `false` and the Color names are
values; any other word is a bound name. -/
def operandOf (w : String) : Option Operand :=
  match w.toList with
  | '0' :: 'x' :: c :: cs => (digitsValue 16 0 (c :: cs)).map .number
  | '0' :: 'b' :: c :: cs => (digitsValue 2 0 (c :: cs)).map .number
  | [] => none
  | c :: cs =>
      if '0' ≤ c ∧ c ≤ '9' then (digitsValue 10 0 (c :: cs)).map .number
      else if w = "true" then some (.bool true)
      else if w = "false" then some (.bool false)
      else match colorNames.lookup w with
        | some k => some (.color k)
        | none => some (.name w)

/-- Operand words up to an optional `-> name` at the end. DESIGN CHOICE (assumption 24, unsafe): any one word
may stand after `->`, also a number, a bool or a Color name, which `operandOf` never reads as a bound name. -/
def operandsAndName : List String → Option (List Operand × Option String)
  | [] => some ([], none)
  | w :: ws =>
      if w = "->" then
        match ws with
        | [id] => some ([], some id)
        | _ => none
      else
        match operandOf w, operandsAndName ws with
        | some o, some (os, id) => some (o :: os, id)
        | _, _ => none

/-- One line: an operation in text form (R62) or a pseudo-operation (R63). DESIGN CHOICE (assumption 23,
safe): the index of ENTITY_DRAW is a literal number; a line with a name or a keyword there is no request. -/
def requestOf (line : String) : Option Request :=
  match wordsOf [] line.toList with
  | ["DRIVER_ITERATION"] => some .driverIteration
  | ["ENTITY_DRAW", i] =>
      match operandOf i with
      | some (.number n) => some (.entityDraw n)
      | _ => none
  | op :: ws =>
      match mnemonicOf op, operandsAndName ws with
      | some m, some (os, id) => some (.call ⟨m, os, id⟩)
      | _, _ => none
  | [] => none

/-- A program in text form, line by line. -/
def programOf : List String → Option (List Request)
  | [] => some []
  | l :: ls =>
      match requestOf l, programOf ls with
      | some r, some rs => some (r :: rs)
      | _, _ => none

end Sys2Proof.Machine
end

