-- ==== Sys2Proof/Tests/Slice0.lean ====
section
/-! SUPPORT. Tests on vectors of spec/95_test_vectors.md (each names its vector), an ill-formed term for each
check of WellFormed, and for every obligation with hypotheses a witness that meets them together. -/

namespace Sys2Proof.Tests

open Sys2Proof.Machine

/-! ### Helpers -/

/-- The placeholder addresses taken as resolved, every address valid, no address written from outside. -/
def bufferCfg : Config := { Config.spec with borderResolved := true, inputPortResolved := true, extMutable := [] }

/-- A start state on the backing buffer of `bufferCfg` with an idle external agent and one item to issue. -/
def withItem (r : Request) : State := State.start bufferCfg State.reset.ents [r] (.scripted [])

/-- The same with one byte of memory known. -/
def withByte (r : Request) (a : Address) (v : Byte) : State := { withItem r with mem := [(a.toNat, v)] }

/-- What a next state shows; none for a refusal. -/
def seen {α : Type} (o : Host.Outcome State Fault Refusal) (f : State → α) : Option α :=
  match o with
  | .next t => some (f t)
  | .fault _ => none
  | .refused _ => none

/-- The packed responses, the trace and the marks: what the vectors list. -/
def shown (t : State) : List ResponseWord × List Event × List Violation :=
  (t.responses.map Response.pack, t.trace, t.viol)

/-- Two or more external writes are allowed everywhere. -/
def openCfg : Config := { bufferCfg with extMutable := AddrRange.everywhere }

/-- A configuration in which only the first `n` addresses are valid. -/
def validBelow (n : Nat) : Config := { bufferCfg with validAddr := [⟨0, n - 1⟩] }

/-! ### WellFormed refuses an ill-formed term for each of its checks -/

theorem test_wellFormed_refuses_ink_8 : ¬ (Instr.attrEncode 8 0 false false).WellFormed := by decide
theorem test_wellFormed_refuses_paper_8 : ¬ (Instr.attrEncode 0 8 false false).WellFormed := by decide
theorem test_wellFormed_refuses_border_8 : ¬ (Instr.setBorder 8).WellFormed := by decide
theorem test_wellFormed_accepts_white : (Instr.attrEncode 7 7 true true).WellFormed := by decide

/-! ### Decoding: words written out bit by bit from R56 and R57 -/

/-- op 0001, rsv 0000, addr 0101 1001 1010 0010 (22946), unused 0 (RA2). -/
theorem test_decode_regRead : decode 0b0001_0000_0101100110100010_00000000 = .ok (.regRead 22946) := rfl
/-- op 0010, addr 0101 1000 0000 0000 (22528), data 0010 0000 (RA1). -/
theorem test_decode_regWrite : decode 0b0010_0000_0101100000000000_00100000 = .ok (.regWrite 22528 32) := rfl
/-- op 0011, flash 0, bright 1, paper 110 (YELLOW), ink 001 (BLUE) (CA13). -/
theorem test_decode_attrEncode :
    decode 0b0011_0000_000000_0_1_00000_110_00000_001 = .ok (.attrEncode 1 6 true false) := rfl
/-- op 0100, byte 1100 1111 (CA27). -/
theorem test_decode_attrDecode : decode 0b0100_0000_0000000000000000_11001111 = .ok (.attrDecode 0xCF) := rfl
/-- op 0101, byte 0001 0001 (IP10). -/
theorem test_decode_portDecode : decode 0b0101_0000_0000000000000000_00010001 = .ok (.portDecode 0x11) := rfl
/-- op 0110, no operand (IP18). -/
theorem test_decode_portPoll : decode 0b0110_0000_000000000000000000000000 = .ok .portPoll := rfl
/-- op 0111, x 0001 1111 (31), y 0001 0111 (23) (DI4). -/
theorem test_decode_cellAddress : decode 0b0111_0000_00011111_00010111_00000000 = .ok (.cellAddress 31 23) := rfl
/-- op 1000, x 0000 0010 (2), y 0000 1101 (13), attr 0010 0000 (32) (DI25). -/
theorem test_decode_setCellColor : decode 0b1000_0000_00000010_00001101_00100000 = .ok (.setCellColor 2 13 32) := rfl
/-- op 1001, color 010 (RED) (DI31). -/
theorem test_decode_setBorder : decode 0b1001_0000_000000000000000000000_010 = .ok (.setBorder 2) := rfl

/-- RQ1 to RQ3: reserved operation selects, and the code kept for `set_pixel`. -/
theorem test_decode_reserved_ops :
    decode 0x00000000 = .error .reservedOp ∧ decode 0xA0000000 = .error .setPixel ∧
    decode 0xF0000000 = .error .reservedOp := ⟨rfl, rfl, rfl⟩

/-- RQ4 to RQ12: reserved bits, and bits outside the format. -/
theorem test_decode_illegal_bits :
    decode 0x31000400 = .error .reservedBits ∧ decode 0x30000800 = .error (.argumentBits .ATTR_ENCODE) ∧
    decode 0x30000008 = .error (.argumentBits .ATTR_ENCODE) ∧
    decode 0x30040000 = .error (.argumentBits .ATTR_ENCODE) ∧
    decode 0x40000100 = .error (.argumentBits .ATTR_DECODE) ∧
    decode 0x60000001 = .error (.argumentBits .PORT_POLL) ∧
    decode 0x90000008 = .error (.argumentBits .SET_BORDER) ∧
    decode 0x10580001 = .error (.argumentBits .REG_READ) ∧
    decode 0x70000001 = .error (.argumentBits .CELL_ADDRESS) :=
  ⟨rfl, rfl, rfl, rfl, rfl, rfl, rfl, rfl, rfl⟩

/-- The legal words at the edges of the masks (section 2.6). -/
theorem test_decode_edges :
    decode 0x20FFFFFF = .ok (.regWrite 65535 255) ∧ decode 0x80FFFFFF = .ok (.setCellColor 255 255 255) ∧
    decode 0x10FFFF00 = .ok (.regRead 65535) ∧ decode 0x70FFFF00 = .ok (.cellAddress 255 255) ∧
    decode 0x30030707 = .ok (.attrEncode 7 7 true true) ∧ decode 0x90000007 = .ok (.setBorder 7) :=
  ⟨rfl, rfl, rfl, rfl, rfl, rfl⟩

/-- The encoder on the words of section 2. -/
theorem test_encode_words :
    encode (.regRead 22946) = 0x1059A200 ∧ encode (.regWrite 65535 255) = 0x20FFFFFF ∧
    encode (.attrEncode 5 3 false true) = 0x30020305 ∧ encode (.attrDecode 0x9D) = 0x4000009D ∧
    encode (.portDecode 0xF5) = 0x500000F5 ∧ encode .portPoll = 0x60000000 ∧
    encode (.cellAddress 5 0) = 0x70050000 ∧ encode (.setCellColor 30 12 16) = 0x801E0C10 ∧
    encode (.setBorder 4) = 0x90000004 := by decide

/-! ### One step of each operation -/

/-- RA2: the read returns 32, records `Rd(22946, 32)` and leaves memory unchanged. -/
theorem test_regRead : seen (step (withByte (.word 0x1059A200) 22946 32)) (fun t => (shown t, t.mem)) =
    some (([32], [.rd 22946 32], []), [(22946, 32)]) := by decide

/-- RA4: an external write just before the read is what the read returns. -/
theorem test_regRead_after_external_write :
    seen (step { withByte (.word 0x10000000) 0 0 with cfg := openCfg, agent := .scripted [[⟨0, 17⟩]] }) shown =
      some ([17], [.extWr 0 17, .rd 0 17], []) := by decide

/-- RA6: the highest address. -/
theorem test_regWrite_highest : seen (step (withItem (.word 0x20FFFFFF))) (fun t => (shown t, t.mem)) =
    some (([0], [.wr 65535 255], []), [(65535, 255)]) := by decide

/-- RA3, its second write: writing the value that is there is still a write. -/
theorem test_regWrite_same_value : seen (step (withByte (.word 0x20006402) 100 2)) (fun t => (t.trace, t.mem)) =
    some ([.wr 100 2], [(100, 2)]) := by decide

/-- CA12: CYAN, MAGENTA, false, true is 157. -/
theorem test_attrEncode : seen (step (withItem (.word 0x30020305))) shown = some ([157], [], []) := by decide

/-- CA40: a Color of 8 is refused with `V_COLOR`. -/
theorem test_attrEncode_refuses_8 :
    exec (.attrEncode 8 0 false false) (withItem (.goto 0)) = .refused (.violated [.color 8]) := rfl

/-- CA33: 0xBD is (CYAN, WHITE, false, true). -/
theorem test_attrDecode : seen (step (withItem (.word 0x400000BD))) (fun t => (t.responses, shown t)) =
    some ([.fields ⟨Color.cyan, Color.white, false, true⟩], ([0x020705], [], [])) := by decide

/-- IP14: 0xF5 is right, down, fire. -/
theorem test_portDecode : seen (step (withItem (.word 0x500000F5))) (fun t => (t.responses, shown t)) =
    some ([.signals ⟨true, false, true, false, true⟩], ([0x15], [], [])) := by decide

/-- IP18: the external agent writes 0x11 to the port, the poll returns 17. -/
theorem test_portPoll : seen (step { withItem (.word 0x60000000) with
      cfg := { bufferCfg with extMutable := [⟨0, 0⟩] }, agent := .scripted [[⟨0, 0x11⟩]] }) shown =
    some ([17], [.extWr 0 17, .rd 0 17], []) := by decide

/-- IP20: unresolved, the read is made at address 0 all the same and marked; the byte is any value. -/
theorem test_portPoll_unresolved :
    seen (step { withByte (.word 0x60000000) 0 17 with cfg := Config.spec }) (fun t => (blockSites t.trace, t.viol)) =
      some ([.reads 0], [.unresolved 0]) := by decide

/-- DI11: `32*y` is not truncated to 8 bits. -/
theorem test_cellAddress : seen (step (withItem (.word 0x70100800))) shown = some ([0x5910], [], []) := by decide

/-- DI19: the largest result, far out of range, marks nothing. -/
theorem test_cellAddress_largest : seen (step (withItem (.word 0x70FFFF00))) shown = some ([0x78DF], [], []) := by
  decide

/-- DI24: the last cell. -/
theorem test_setCellColor : seen (step (withItem (.word 0x801F17C7))) (fun t => (shown t, t.mem)) =
    some (([0], [.wr 23295 199], []), [(23295, 199)]) := by decide

/-- DI27: out of range, the write lands on the byte of cell (0, 1) and is marked. -/
theorem test_setCellColor_out_of_range : seen (step (withItem (.word 0x80200007))) (fun t => (shown t, t.mem)) =
    some (([0], [.wr 22560 7], [.cell 32 0]), [(22560, 7)]) := by decide

/-- DI35: out of range at an invalid address, both causes are marked and no access is made. -/
theorem test_setCellColor_two_causes :
    step { withItem (.word 0x80001807) with cfg := validBelow 23296 } =
      .refused (.violated [.cell 0 24, .addr 23296]) := rfl

/-- DI31: the placeholder border address, unresolved. -/
theorem test_setBorder : seen (step { withItem (.word 0x90000002) with cfg := { bufferCfg with borderResolved := false } })
    (fun t => (shown t, t.mem)) = some (([0], [.wr 100 2], [.unresolved 100]), [(100, 2)]) := by decide

/-- DI34: the border register inside the table. -/
theorem test_setBorder_overlap :
    seen (step { withItem (.word 0x90000004) with cfg := { bufferCfg with borderAddr := 22528 } })
      (fun t => (shown t, t.mem)) = some (([0], [.wr 22528 4], []), [(22528, 4)]) := by decide

/-! ### The requester -/

/-- RQ9: an illegal word is answered `illegal` = 1 and refused. -/
theorem test_illegal_word : step (withItem (.word 0x60000001)) =
    .refused (.illegalRequest ⟨true, 0⟩ [.illegal 0x60000001]) := rfl

/-- P1, positions 0 and 1: `ATTR_ENCODE YELLOW, BLUE, true, false -> a`, then `SET_CELL_COLOR 10, 5, a`. -/
theorem test_text_form_binds : seen (step (withItem (.call ⟨.ATTR_ENCODE,
      [.color Color.yellow, .color Color.blue, .bool true, .bool false], some "a"⟩))) (fun t => t.names) =
    some [("a", 78)] := by decide
theorem test_text_form_uses_name : seen (step { withItem (.call ⟨.SET_CELL_COLOR, [.number 10, .number 5, .name "a"], none⟩)
      with names := [("a", 78)] }) (fun t => t.trace) = some [.wr 22698 78] := by decide

/-- The lines of program P1 and of P2 as the spec prints them. -/
theorem test_text_is_read :
    programOf ["ATTR_ENCODE YELLOW, BLUE, true, false -> a", "SET_CELL_COLOR 10, 5, a",
      "PORT_DECODE 0b00011111", "ATTR_DECODE 0xCF", "PORT_POLL -> p", "ENTITY_DRAW 1", "DRIVER_ITERATION"] =
    some [.call ⟨.ATTR_ENCODE, [.color Color.yellow, .color Color.blue, .bool true, .bool false], some "a"⟩,
      .call ⟨.SET_CELL_COLOR, [.number 10, .number 5, .name "a"], none⟩,
      .call ⟨.PORT_DECODE, [.number 31], none⟩, .call ⟨.ATTR_DECODE, [.number 207], none⟩,
      .call ⟨.PORT_POLL, [], some "p"⟩, .entityDraw 1, .driverIteration] := by decide

/-- S11 and S12 (RC1, RC2): the update of the driver. -/
theorem test_next_row : nextRow 23 = 0 ∧ nextRow 5 = 6 := by decide

/-- RC8: an entity created out of range is refused with `V_ENTITY`. -/
theorem test_driver_refuses_row_24 : step { withItem .driverIteration with ents := [⟨2, 24, 32⟩] } =
    .refused (.violated [.entity 24]) := rfl

/-- RC5: ENTITY_DRAW 1. -/
theorem test_entityDraw : seen (step (withItem (.entityDraw 1))) (fun t => (t.trace, t.pc)) =
    some ([.wr 22942 16], 1) := by decide

/-- The entities of the default start state are made by ATTR_ENCODE of their colors (R116). -/
theorem test_created_entities :
    [createEntity 2 12 0 4 false false, createEntity 30 12 0 2 false false] = State.reset.ents.map some := by decide

/-- "With the placeholder values 100 and 0 it holds" (R35). -/
theorem test_placeholders_disjoint : configDisjoint Config.spec = true := by decide

/-- From reset, a word placed for the next step is fetched and runs. -/
theorem test_first_instruction_runs : seen (step (State.reset.withFetchWord 32 0x90000002)) (fun t => (t.pc, t.viol)) =
    some (1, [.unresolved 100]) := by decide

/-! ### Witnesses: the hypotheses of the obligations can be met together -/

theorem witness_StepRunsDecodedWord : (withItem (.word 0x60000000)).drawing = none ∧
    (withItem (.word 0x60000000)).program[(withItem (.word 0x60000000)).pc]? = some (.word 0x60000000) ∧
    decode 0x60000000 = .ok .portPoll := ⟨rfl, rfl, rfl⟩

theorem witness_StepRunsTextForm :
    let s := withItem (.call ⟨.ATTR_DECODE, [.number 7], some "f"⟩)
    s.drawing = none ∧ s.program[s.pc]? = some (.call ⟨.ATTR_DECODE, [.number 7], some "f"⟩) ∧
    [Operand.number 7].mapM (fun o => o.value s.names) = some [7] ∧
    assemble .ATTR_DECODE [7] = some (.attrDecode 7) ∧
    ∃ t, exec (.attrDecode 7) s.externalTurn = .next t := ⟨rfl, rfl, rfl, rfl, _, rfl⟩

/-- Its other clauses: a line without `-> name`, here with a bound name as an operand, and a refused one. -/
theorem witness_StepRunsTextForm_unbound_and_refused :
    let c : Call := ⟨.SET_CELL_COLOR, [.number 10, .number 5, .name "a"], none⟩
    let s := { withItem (.call c) with names := [("a", 78)] }
    let r := withItem (.call ⟨.SET_BORDER, [.number 8], none⟩)
    (s.drawing = none ∧ s.program[s.pc]? = some (.call c) ∧
      c.args.mapM (fun o => o.value s.names) = some [10, 5, 78] ∧
      assemble .SET_CELL_COLOR [10, 5, 78] = some (.setCellColor 10 5 78) ∧
      ∃ t, exec (.setCellColor 10 5 78) s.externalTurn = .next t) ∧
    (r.drawing = none ∧ r.program[r.pc]? = some (.call ⟨.SET_BORDER, [.number 8], none⟩) ∧
      [Operand.number 8].mapM (fun o => o.value r.names) = some [8] ∧
      assemble .SET_BORDER [8] = some (.setBorder 8) ∧
      ∃ q, exec (.setBorder 8) r.externalTurn = .refused q) :=
  ⟨⟨rfl, rfl, rfl, rfl, _, rfl⟩, rfl, rfl, rfl, rfl, _, rfl⟩

/-- Operations to which no refuse cause applies and one for each cause: the Color 8, an invalid address. -/
theorem witness_OperationsCompleteOrRefuse : Allowed bufferCfg (.attrEncode 7 7 true true) ∧
    Allowed (validBelow 101) (.setBorder 7) ∧ ¬ Allowed bufferCfg (.attrEncode 0 8 true true) ∧
    ¬ Allowed bufferCfg (.setBorder 8) ∧ ¬ Allowed (validBelow 100) (.setBorder 7) := by
  refine ⟨⟨by decide, nofun⟩, ⟨by decide, fun site h => ?_⟩, fun h => ?_, fun h => ?_, fun h => ?_⟩
  · cases h; decide
  · exact absurd (h.1 8 (by decide)) (by decide)
  · exact absurd (h.1 8 (by decide)) (by decide)
  · exact absurd (h.2 _ rfl) (by decide)

/-- Each kind of agent: free, with a turn left (one of its two writes is outside `ExtMutable`), used up. -/
theorem witness_ExternalTurnWritesOnlyMutable : State.reset.agent = .free ∧
    { withItem .driverIteration with agent := .scripted [[⟨0, 1⟩, ⟨7, 2⟩]] }.agent = .scripted ([⟨0, 1⟩, ⟨7, 2⟩] :: []) ∧
    { withItem .driverIteration with
      cfg := { bufferCfg with extMutable := [⟨0, 0⟩] }, agent := .scripted [[⟨0, 1⟩, ⟨7, 2⟩]] }.extWrites = [⟨0, 1⟩] ∧
    (withItem .driverIteration).agent = .scripted [] := by decide

/-- Its memory clause: two writes to different addresses, and two to the same one. -/
theorem witness_ExternalTurn_writes :
    let s := fun turn => { withItem .driverIteration with cfg := openCfg, agent := .scripted [turn] }
    (s [⟨5, 1⟩, ⟨7, 2⟩]).extWrites = [] ++ ⟨5, 1⟩ :: [⟨7, 2⟩] ∧ (∀ d ∈ [(⟨7, 2⟩ : ExtWrite)], d.addr ≠ 5) ∧
    (s [⟨5, 1⟩, ⟨5, 2⟩]).extWrites = [⟨5, 1⟩] ++ ⟨5, 2⟩ :: [] := by decide

theorem witness_EndedRunStays : State.reset.drawing = none ∧ State.reset.program.length ≤ State.reset.pc := by decide

theorem witness_DecodeOfEncode : (Instr.attrEncode 7 7 true true).WellFormed ∧ (Instr.setBorder 7).WellFormed := by
  decide

theorem witness_EncodeOfDecode : decode 0x80FFFFFF = .ok (.setCellColor 255 255 255) := rfl

theorem witness_RowsAreDisjoint :
    (0x10FFFF00 : Word) &&& Mnemonic.REG_READ.mask = Mnemonic.REG_READ.pattern := by decide

theorem witness_IllegalWordIsRefused : (withItem (.word 0xA0000000)).drawing = none ∧
    (withItem (.word 0xA0000000)).program[(withItem (.word 0xA0000000)).pc]? = some (.word 0xA0000000) ∧
    ∀ m : Mnemonic, (0xA0000000 : Word) &&& m.mask ≠ m.pattern :=
  ⟨rfl, rfl, fun m => by cases m <;> decide⟩

theorem witness_LegalWordIsNotIllegal : (withItem (.word 0x90000007)).drawing = none ∧
    (withItem (.word 0x90000007)).program[(withItem (.word 0x90000007)).pc]? = some (.word 0x90000007) ∧
    (0x90000007 : Word) &&& Mnemonic.SET_BORDER.mask = Mnemonic.SET_BORDER.pattern := by decide

/-- A legal word of each outcome: a next state, and the refusal of an invalid address. -/
theorem witness_LegalWord_outcomes : (∃ t, step (withItem (.word 0x90000007)) = .next t) ∧
    step { withItem (.word 0x90000007) with cfg := validBelow 100 } = .refused (.violated [.addr 100]) :=
  ⟨⟨_, rfl⟩, rfl⟩

/-- Both ends of the address space, valid and invalid. -/
theorem witness_valid_and_invalid_addresses :
    validAddr bufferCfg 0 = true ∧ validAddr bufferCfg 65535 = true ∧
    validAddr (validBelow 40000) 39999 = true ∧ validAddr (validBelow 40000) 40000 = false := by decide

/-- Each of the five accessing operations at an invalid address. -/
theorem witness_InvalidAddressIsRefused :
    accessOf { bufferCfg with validAddr := [] } (.regRead 65535) = some (.reads 65535) ∧
    accessOf { bufferCfg with validAddr := [] } (.regWrite 0 1) = some (.writes 0 1) ∧
    accessOf { bufferCfg with validAddr := [] } .portPoll = some (.reads 0) ∧
    accessOf { bufferCfg with validAddr := [] } (.setCellColor 31 23 7) = some (.writes 23295 7) ∧
    accessOf { bufferCfg with validAddr := [] } (.setBorder 7) = some (.writes 100 7) ∧
    validAddr { bufferCfg with validAddr := [] } 65535 = false ∧
    validAddr { bufferCfg with validAddr := [] } 0 = false ∧
    validAddr { bufferCfg with validAddr := [] } 23295 = false ∧
    validAddr { bufferCfg with validAddr := [] } 100 = false := by decide

/-- A read of a byte that is known, of one that is not, and of the border register that may be changed. -/
theorem witness_RegReadReturnsTheByte : validAddr bufferCfg 22946 = true ∧
    Memory.read (withByte (.goto 0) 22946 32).mem 22946 = some 32 ∧
    Memory.read (withByte (.goto 0) 22946 32).mem 22947 = none ∧
    (100 = openCfg.borderAddr ∧ extMutable openCfg 100 = true ∧ validAddr openCfg 100 = true) := by decide

theorem witness_ReadAfterWriteReturnsIt : ∃ t, exec (.regWrite 22528 32) (withItem (.goto 0)) = .next t ∧
    (∀ e ∈ t.extWrites, e.addr ≠ 22528) ∧
    ¬ (22528 = (withItem (.goto 0)).cfg.borderAddr ∧ extMutable (withItem (.goto 0)).cfg 22528 = true) :=
  ⟨_, rfl, by decide, by decide⟩

/-- Of AttrEncodeComputesTheByte and EncodingSumIsBitwiseOr, and of the refusal beside them. -/
theorem witness_AttrEncode : (7 : Nat) ≤ 7 ∧ ((7 : Nat) < 8 ∨ (7 : Nat) < 0) := by decide

theorem witness_PortDecodeIgnoresHighBits : (0xFF : Byte).toNat % 32 = (0x1F : Byte).toNat % 32 := by decide

theorem witness_PortPoll : bufferCfg.inputPortResolved = true ∧ validAddr bufferCfg bufferCfg.inputPortAddr = true ∧
    Config.spec.inputPortResolved = false ∧ validAddr Config.spec Config.spec.inputPortAddr = true := by decide

theorem witness_PollThenDecodeDescribesOneByte : ∃ t, exec .portPoll State.reset = .next t := ⟨_, rfl⟩

/-- The last cell, and an address at each end of the table. -/
theorem witness_InRangeAddresses : Config.spec.colorTableBase = 22528 ∧ (31 : Coord).toNat ≤ 31 ∧
    (23 : Coord).toNat ≤ 23 ∧ 22528 ≤ (22528 : Address).toNat ∧ (23295 : Address).toNat ≤ 23295 ∧
    22528 ≤ (23295 : Address).toNat ∧ (22528 : Address).toNat ≤ 23295 := by decide

/-- DI21, DI20, DI13 and DI12: where the clauses of the out-of-range statement meet. -/
theorem witness_OutOfRangePairsLand : Config.spec.colorTableBase = 22528 ∧
    ((63 : Coord).toNat + 32 * (22 : Coord).toNat ≤ 767 ∧
      (31 : Coord).toNat = ((63 : Coord).toNat + 32 * (22 : Coord).toNat) % 32 ∧
      (23 : Coord).toNat = ((63 : Coord).toNat + 32 * (22 : Coord).toNat) / 32) ∧
    768 ≤ (64 : Coord).toNat + 32 * (22 : Coord).toNat ∧ 24 ≤ (24 : Coord).toNat ∧ (23 : Coord).toNat ≤ 23 ∧
    ∃ t, exec (.setCellColor 63 22 7) State.reset = .next t :=
  ⟨rfl, by decide, by decide, by decide, by decide, _, rfl⟩

/-- The last cell in range, the first column and the first row out of range, all at valid addresses. -/
theorem witness_SetCellColor :
    (23295 : Address) = BitVec.ofNat 16 (bufferCfg.colorTableBase.toNat + ((31 : Coord).toNat + 32 * (23 : Coord).toNat)) ∧
    validAddr bufferCfg 23295 = true ∧ ((31 : Coord).toNat ≤ 31 ∧ (23 : Coord).toNat ≤ 23) ∧
    ¬ ((32 : Coord).toNat ≤ 31 ∧ (0 : Coord).toNat ≤ 23) ∧ ¬ ((0 : Coord).toNat ≤ 31 ∧ (24 : Coord).toNat ≤ 23) ∧
    validAddr bufferCfg (cellAddr bufferCfg 32 0) = true ∧ validAddr bufferCfg (cellAddr bufferCfg 0 24) = true := by
  decide

/-- Each clause of R135: an invalid cell address in and out of range, a border that is no Color, an invalid
border address, an invalid port. -/
theorem witness_AllCausesAreMarked :
    validAddr (validBelow 23295) (cellAddr (validBelow 23295) 31 23) = false ∧
    validAddr (validBelow 23296) (cellAddr (validBelow 23296) 0 24) = false ∧ 7 < 8 ∧
    validAddr (validBelow 100) (validBelow 100).borderAddr = false ∧
    validAddr { bufferCfg with validAddr := [] } { bufferCfg with validAddr := [] }.inputPortAddr = false := by decide

theorem witness_SetBorder : (0 : Nat) ≤ 7 ∧ (7 : Nat) ≤ 7 ∧ validAddr bufferCfg bufferCfg.borderAddr = true ∧
    bufferCfg.borderResolved = true ∧ Config.spec.borderResolved = false ∧
    validAddr Config.spec Config.spec.borderAddr = true := by decide

theorem witness_PureOperationFrame : (∃ t, exec (.attrEncode 7 0 true false) State.reset = .next t) ∧
    (∃ t, exec (.attrDecode 255) State.reset = .next t) ∧ (∃ t, exec (.portDecode 255) State.reset = .next t) ∧
    (∃ t, exec (.cellAddress 255 255) State.reset = .next t) := ⟨⟨_, rfl⟩, ⟨_, rfl⟩, ⟨_, rfl⟩, ⟨_, rfl⟩⟩

theorem witness_ReadFrame : (∃ t, exec (.regRead 65535) State.reset = .next t) ∧
    ∃ t, exec .portPoll State.reset = .next t := ⟨⟨_, rfl⟩, ⟨_, rfl⟩⟩

theorem witness_WriteFrame : (∃ t, exec (.regWrite 65535 255) State.reset = .next t) ∧
    (∃ t, exec (.setCellColor 0 24 7) State.reset = .next t) ∧ ∃ t, exec (.setBorder 7) State.reset = .next t :=
  ⟨⟨_, rfl⟩, ⟨_, rfl⟩, ⟨_, rfl⟩⟩

theorem witness_EntityDrawRepaintsOneCell : (withItem (.entityDraw 1)).drawing = none ∧
    (withItem (.entityDraw 1)).program[(withItem (.entityDraw 1)).pc]? = some (.entityDraw 1) ∧
    (withItem (.entityDraw 1)).ents[1]? = some ⟨30, 12, 16⟩ ∧ validAddr bufferCfg (cellAddr bufferCfg 30 12) = true := by
  decide

/-- Rows 23 and 24, where the two clauses meet. -/
theorem witness_DriverUpdateMovesFirstEntity : (withItem .driverIteration).drawing = none ∧
    (withItem .driverIteration).program[(withItem .driverIteration).pc]? = some .driverIteration ∧
    { withItem .driverIteration with ents := [⟨2, 23, 32⟩] }.ents = [⟨2, 23, 32⟩] ∧
    { withItem .driverIteration with ents := [⟨2, 24, 32⟩] }.ents = [⟨2, 24, 32⟩] ∧ (23 : Coord).toNat < 24 ∧
    24 ≤ (24 : Coord).toNat := by decide

theorem witness_LoopReturns : (withItem (.goto 0)).drawing = none ∧
    (withItem (.goto 0)).program[(withItem (.goto 0)).pc]? = some (.goto 0) := by decide

/-- Every address is valid in the backing buffer. -/
theorem valid_everywhere (a : Address) : validAddr bufferCfg a = true := by
  have h := a.isLt
  simp only [validAddr, inRanges, bufferCfg, Config.spec, AddrRange.everywhere, List.any_cons, List.any_nil,
    Bool.or_false, Bool.and_eq_true, decide_eq_true_eq]
  omega

theorem witness_DriverIterationDrawsAllEntities : (withItem .driverIteration).drawing = none ∧
    (withItem .driverIteration).program[(withItem .driverIteration).pc]? = some .driverIteration ∧
    (withItem .driverIteration).ents = ⟨2, 12, 32⟩ :: [⟨30, 12, 16⟩] ∧
    (withItem .driverIteration).agent = .scripted [] ∧ (12 : Coord).toNat < 24 ∧
    ∀ a ∈ ({ (⟨2, 12, 32⟩ : Entity) with y := nextRow 12 } :: [⟨30, 12, 16⟩]).map
      (fun d => cellAddr (withItem .driverIteration).cfg d.x d.y), validAddr (withItem .driverIteration).cfg a = true :=
  ⟨rfl, rfl, rfl, rfl, by decide, fun a _ => valid_everywhere a⟩

/-- The first of two entities to draw, and the last. -/
theorem witness_DriverDrawRepaintsNextEntity :
    let s := withItem .driverIteration
    s.ents[0]? = some ⟨2, 12, 32⟩ ∧ 0 + 1 < s.ents.length ∧ validAddr s.cfg (cellAddr s.cfg 2 12) = true ∧
    s.ents[1]? = some ⟨30, 12, 16⟩ ∧ 1 + 1 = s.ents.length ∧ validAddr s.cfg (cellAddr s.cfg 30 12) = true ∧
    { s with drawing := some 1 }.drawing = some 1 := by decide

/-- A state that meets every invariant and takes a step: reset itself, and the driver at row 23. -/
theorem witness_steps_from_good_states : State.reset.Inv ∧ State.reset.TraceExplainsMem ∧
    (∃ t, step State.reset = .next t) ∧ (∀ e ∈ State.reset.ents, e.x.toNat ≤ 31 ∧ e.y.toNat ≤ 23) ∧
    ∃ t, step { withItem .driverIteration with ents := [⟨31, 23, 32⟩] } = .next t :=
  ⟨⟨by decide, by decide, by decide⟩, fun _ => rfl, ⟨_, rfl⟩, by decide, ⟨_, rfl⟩⟩

theorem witness_VolatileContract :
    ∃ t, execAll [.regWrite 22528 7, .regRead 22528] (withItem (.goto 0)) = .next t := ⟨_, rfl⟩

theorem witness_MarksDoNotInfluence : ∃ t, exec (.setCellColor 32 0 7) (withItem (.goto 0)) = .next t := ⟨_, rfl⟩

/-- A read in two states that differ in everything but the configuration, the byte read and the draws. -/
theorem witness_ResultsDependOnOperandsOnly :
    (withByte (.goto 0) 22528 32).cfg = (withByte .driverIteration 22528 32).cfg ∧
    (∀ a, accessOf (withByte .driverIteration 22528 32).cfg (.regRead 22528) = some (.reads a) →
      Memory.read (withByte (.goto 0) 22528 32).mem a = Memory.read (withByte .driverIteration 22528 32).mem a ∧
      (withByte (.goto 0) 22528 32).draws = (withByte .driverIteration 22528 32).draws) ∧
    ∃ t, exec (.regRead 22528) (withByte .driverIteration 22528 32) = .next t :=
  ⟨rfl, fun _ _ => ⟨rfl, rfl⟩, _, rfl⟩

end Sys2Proof.Tests
end

section
/-! What reset leaves: the address sets of the configuration reset starts with, and the state (R23, R150). -/
namespace Sys2Proof.Machine

/-- The one range 0 to 65535 holds every 16-bit address (R30). -/
@[simp] theorem inRanges_everywhere (a : Address) : inRanges AddrRange.everywhere a = true := by
  have hlt : a.toNat < 65536 := a.isLt
  have hle : a.toNat ≤ 65535 := by omega
  simp [inRanges, AddrRange.everywhere, hle]

@[simp] theorem validAddr_reset (a : Address) : validAddr State.reset.cfg a = true := inRanges_everywhere a

@[simp] theorem extMutable_reset (a : Address) : extMutable State.reset.cfg a = true := inRanges_everywhere a

/-- Nothing has been written at reset, so every address is unknown (R23). -/
@[simp] theorem Memory.read_reset (a : Address) : Memory.read State.reset.mem a = none := rfl

/-- Settles O1: the three clauses about every address are lemmas above; every other clause states one field
of `State.reset`. -/
theorem resetState : Obligations.ResetState :=
  ⟨Memory.read_reset, rfl, rfl, rfl, rfl, rfl, rfl, rfl, rfl, rfl, rfl, validAddr_reset, extMutable_reset,
    rfl, rfl, rfl, rfl⟩

end Sys2Proof.Machine
end

section
/-! One equation for all nine operations: mark the causes, refuse or make the access, then respond. And
which parts of the state a response depends on (R10, R36). -/
namespace Sys2Proof.Machine

/-- The causes of R134 that apply to an operation; the configuration and the operands fix them. -/
def causesOf (cfg : Config) : Instr → List Violation
  | .regRead a => addrCause cfg a
  | .regWrite a _ => addrCause cfg a
  | .attrEncode ink paper _ _ => colorCause ink ++ colorCause paper
  | .attrDecode _ => []
  | .portDecode _ => []
  | .portPoll => unresolvedCause cfg.inputPortResolved cfg.inputPortAddr ++ addrCause cfg cfg.inputPortAddr
  | .cellAddress _ _ => []
  | .setCellColor x y _ => cellCause x y ++ addrCause cfg (cellAddr cfg x y)
  | .setBorder c =>
      colorCause c ++ unresolvedCause cfg.borderResolved cfg.borderAddr ++ addrCause cfg cfg.borderAddr

/-- What a completed operation returns to the requester (R58). -/
def resultOf (s : State) : Instr → Response
  | .regRead a => .byte (s.readValue a)
  | .regWrite _ _ => .done
  | .attrEncode ink paper bright flash => .byte (encodeAttr ink paper bright flash)
  | .attrDecode b => .fields (decodeAttr b)
  | .portDecode b => .signals (decodePort b)
  | .portPoll => .byte (pollValue s)
  | .cellAddress x y => .address (cellAddr s.cfg x y)
  | .setCellColor _ _ _ => .done
  | .setBorder _ => .done

/-- The state after the one access of an operation; a pure operation makes none (R41). -/
def accessed (s : State) : Instr → State
  | .regRead a => s.recordRead a (s.readValue a)
  | .regWrite a d => s.memWrite a d
  | .attrEncode _ _ _ _ => s
  | .attrDecode _ => s
  | .portDecode _ => s
  | .portPoll => s.recordRead s.cfg.inputPortAddr (pollValue s)
  | .cellAddress _ _ => s
  | .setCellColor x y attr => s.memWrite (cellAddr s.cfg x y) attr
  | .setBorder c => s.memWrite s.cfg.borderAddr (borderByte c)

theorem exec_eq_checked (i : Instr) (s : State) :
    exec i s = checked (causesOf s.cfg i) (fun t => .next ((accessed t i).respond (resultOf t i))) s := by
  cases i <;> rfl

@[simp] theorem accessed_responses (s : State) (i : Instr) : (accessed s i).responses = s.responses := by
  cases i <;> rfl

/-- No response depends on the marks (R133). -/
@[simp] theorem resultOf_violate (s : State) (cs : List Violation) (i : Instr) :
    resultOf (s.violate cs) i = resultOf s i := by
  cases i <;> rfl

/-- An operation completes exactly where none of its causes refuses, in the state after its access. -/
theorem exec_next_iff {i : Instr} {s t : State} :
    exec i s = .next t ↔ (∀ v ∈ causesOf s.cfg i, v.refuses = false) ∧
      t = (accessed (s.violate (causesOf s.cfg i)) i).respond (resultOf s i) := by
  rw [exec_eq_checked]
  constructor
  · intro h
    obtain ⟨hc, hk⟩ := checked_next h
    rw [resultOf_violate] at hk
    exact ⟨hc, (Host.Outcome.next.inj hk).symm⟩
  · rintro ⟨hc, rfl⟩
    rw [checked_pass _ _ hc, resultOf_violate]

/-- What a read returns: the stored byte, or a free value where the address holds no known byte or is the
border register's and may be changed from outside (R18, R36). -/
theorem readValue_eq (s : State) (a : Address) :
    s.readValue a = if a = s.cfg.borderAddr ∧ extMutable s.cfg a = true then Config.freeByte s.draws
      else (Memory.read s.mem a).getD (Config.freeByte s.draws) := by
  unfold State.readValue State.known
  split <;> rfl

/-- Of the state, a read sees the configuration, the byte at its address and the draw counter. -/
theorem readValue_congr {s s' : State} {a : Address} (hcfg : s'.cfg = s.cfg)
    (hmem : Memory.read s'.mem a = Memory.read s.mem a) (hdraws : s'.draws = s.draws) :
    s'.readValue a = s.readValue a := by
  simp only [readValue_eq, hcfg, hmem, hdraws]

/-- Of the state, a poll sees what a read at the input port sees. -/
theorem pollValue_congr {s s' : State} (hcfg : s'.cfg = s.cfg)
    (hmem : Memory.read s'.mem s.cfg.inputPortAddr = Memory.read s.mem s.cfg.inputPortAddr)
    (hdraws : s'.draws = s.draws) : pollValue s' = pollValue s := by
  simp only [pollValue, hcfg, hdraws, readValue_congr hcfg hmem hdraws]

/-- Of the state, a response depends on the configuration and, for a read, on what the read sees. -/
theorem resultOf_congr {i : Instr} {s s' : State} (hcfg : s'.cfg = s.cfg)
    (hread : ∀ a, accessOf s.cfg i = some (.reads a) →
      Memory.read s'.mem a = Memory.read s.mem a ∧ s'.draws = s.draws) :
    resultOf s' i = resultOf s i := by
  cases i with
  | regRead a =>
    obtain ⟨hmem, hdraws⟩ := hread a rfl
    exact congrArg Response.byte (readValue_congr hcfg hmem hdraws)
  | portPoll =>
    obtain ⟨hmem, hdraws⟩ := hread s.cfg.inputPortAddr rfl
    exact congrArg Response.byte (pollValue_congr hcfg hmem hdraws)
  | cellAddress x y => exact congrArg (fun cfg => Response.address (cellAddr cfg x y)) hcfg
  | regWrite | attrEncode | attrDecode | portDecode | setCellColor | setBorder => rfl

/-- Settles O55: the causes depend on the configuration and the operands, the response besides on what a
read sees. -/
theorem resultsDependOnOperandsOnly : Obligations.ResultsDependOnOperandsOnly := by
  intro i s s' t hcfg hread h
  obtain ⟨hc, rfl⟩ := exec_next_iff.1 h
  have hc' : ∀ v ∈ causesOf s'.cfg i, v.refuses = false := hcfg ▸ hc
  exact ⟨_, resultOf s i, exec_next_iff.2 ⟨hc', rfl⟩, by simp, by simp [resultOf_congr hcfg hread]⟩

/-- No cause applies to an access at a valid address (R34). -/
theorem addrCause_valid {cfg : Config} {a : Address} (h : validAddr cfg a = true) : addrCause cfg a = [] := by
  simp [addrCause, h]

/-- REG_READ at a valid address marks nothing and completes with its read (R71). -/
theorem exec_regRead_valid {s : State} {a : Address} (h : validAddr s.cfg a = true) :
    exec (.regRead a) s = .next ((s.recordRead a (s.readValue a)).respond (.byte (s.readValue a))) := by
  rw [exec_regRead, execRegRead, addrCause_valid h]
  exact checked_pass _ s nofun

/-- Settles O15: the read completes with `readValue`, whose cases are those of the statement. -/
theorem regReadReturnsTheByte : Obligations.RegReadReturnsTheByte := by
  intro s a h
  refine ⟨s.readValue a, exec_regRead_valid h, ?_⟩
  rw [readValue_eq]
  cases Memory.read s.mem a <;> rfl

end Sys2Proof.Machine
end

section
/-! Which item a step issues, and what no step changes (R15, R20, R22). -/
namespace Sys2Proof.Machine

/-- With no iteration in progress, a step issues the item at `pc` after the external agent's turn. -/
theorem step_of_item {s : State} {r : Request} (hd : s.drawing = none) (hr : s.program[s.pc]? = some r) :
    step s = issue r s.externalTurn := by
  simp [step_def, requesterStep, hd, hr]

/-- A word that decodes is issued as its operation, and `pc` moves on by 1 (R15, R61). -/
theorem issueWord_of_decode {w : Word} {i : Instr} (h : decode w = .ok i) (s : State) :
    issueWord w s = andThen (exec i s) fun t => .next t.advance := by
  simp only [issueWord, h]

/-- Settles O2: the step issues the word, and the word issues its operation. -/
theorem stepRunsDecodedWord : Obligations.StepRunsDecodedWord := by
  intro s w i hd hr hw
  rw [step_of_item hd hr, issue, issueWord_of_decode hw]
  cases exec i s.externalTurn <;> rfl

/-- A step of the requester keeps the parameters: of the entity registers only `ent[0].y` can change, in
the driver's update (R14, R118). -/
theorem requesterStep_keeps_parameters {s t : State} (h : requesterStep s = .next t) :
    t.cfg = s.cfg ∧ t.program = s.program ∧
      t.ents.map (fun e => (e.x, e.attr)) = s.ents.map (fun e => (e.x, e.attr)) ∧
      t.ents.tail = s.ents.tail := by
  obtain rfl | ⟨target, rfl⟩ | ⟨e, es, he, -, rfl⟩ | ⟨i, u, hu, pc, drawing, names, rfl, -⟩ :=
    requesterStep_cases h
  case inr.inr.inl => simp [he]
  case inr.inr.inr =>
    obtain ⟨hcfg, hents, hprogram, -⟩ := exec_keeps hu
    simp [hcfg, hents, hprogram]
  all_goals exact ⟨rfl, rfl, rfl, rfl⟩

/-- Settles O54: the external agent's turn touches no parameter, and the requester's step keeps them. -/
theorem parametersNeverChange : Obligations.ParametersNeverChange :=
  fun s _ h => requesterStep_keeps_parameters (s := s.externalTurn) h

end Sys2Proof.Machine
end

section
/-! The invariants at reset, where nothing has happened yet (R23, R150). -/
namespace Sys2Proof.Machine

theorem reset_inv : State.reset.Inv where
  memWf := ⟨List.Pairwise.nil, nofun⟩
  violNodup := List.nodup_nil
  drawing := nofun

/-- No byte is known and no event has been recorded. -/
theorem reset_traceExplainsMem : State.reset.TraceExplainsMem := Memory.read_reset

/-- Settles O46. -/
theorem resetMeetsInvariant : Obligations.ResetMeetsInvariant := ⟨reset_inv, reset_traceExplainsMem⟩

end Sys2Proof.Machine
end

section
/-! Memory is what replaying the events of a trace makes of it (R36, R43 (a)). -/
namespace Sys2Proof.Machine

/-- What one event of the trace does to memory (R36, R37, R44). -/
def Event.apply (m : Memory) : Event → Memory
  | .rd _ _ => m
  | .wr a v => Memory.write m a v
  | .extWr a v => Memory.write m a v

/-- Memory after a list of events, oldest first. -/
def Memory.replay (m : Memory) (es : List Event) : Memory := es.foldl Event.apply m

theorem Memory.replay_append (m : Memory) (es fs : List Event) :
    Memory.replay m (es ++ fs) = Memory.replay (Memory.replay m es) fs := List.foldl_append

theorem Event.apply_wf {m : Memory} (h : Memory.wf m) (e : Event) : Memory.wf (e.apply m) := by
  cases e with
  | rd a v => exact h
  | wr a v => exact Memory.write_wf h a v
  | extWr a v => exact Memory.write_wf h a v

theorem Memory.replay_wf {m : Memory} (h : Memory.wf m) (es : List Event) : Memory.wf (Memory.replay m es) := by
  induction es generalizing m with
  | nil => exact h
  | cons e es ih => exact ih (Event.apply_wf h e)

theorem lastWrite_cons (a : Address) (e : Event) (es : List Event) :
    lastWrite a (e :: es) = (lastWrite a es).or (lastWrite a [e]) := by
  cases h : lastWrite a es <;> cases e <;> simp [lastWrite, h]

theorem lastWrite_append (a : Address) (es fs : List Event) :
    lastWrite a (es ++ fs) = (lastWrite a fs).or (lastWrite a es) := by
  induction es with
  | nil => simp [lastWrite]
  | cons e es ih => rw [List.cons_append, lastWrite_cons, ih, lastWrite_cons a e es, Option.or_assoc]

theorem Memory.read_write_eq_or (m : Memory) (a b : Address) (v : Byte) :
    Memory.read (Memory.write m b v) a = (if b = a then some v else none).or (Memory.read m a) := by
  by_cases h : b = a
  · simp [h]
  · simp [h, Memory.read_write_other m v (Ne.symm h)]

theorem Event.read_apply (m : Memory) (e : Event) (a : Address) :
    Memory.read (e.apply m) a = (lastWrite a [e]).or (Memory.read m a) := by
  cases e with
  | rd b v => rfl
  | wr b v => exact Memory.read_write_eq_or m a b v
  | extWr b v => exact Memory.read_write_eq_or m a b v

/-- After a replay a byte is the latest write to it among the events, or what it was (R36). -/
theorem Memory.read_replay (m : Memory) (es : List Event) (a : Address) :
    Memory.read (Memory.replay m es) a = (lastWrite a es).or (Memory.read m a) := by
  induction es generalizing m with
  | nil => rfl
  | cons e es ih =>
    calc Memory.read (Memory.replay (e.apply m) es) a
        = (lastWrite a es).or (Memory.read (e.apply m) a) := ih _
      _ = (lastWrite a (e :: es)).or (Memory.read m a) := by
        rw [Event.read_apply, lastWrite_cons a e es, Option.or_assoc]

/-- The latest write to an address is one of the events, by either agent (R43 (a)). -/
theorem mem_of_lastWrite {a : Address} {es : List Event} {v : Byte} (h : lastWrite a es = some v) :
    Event.wr a v ∈ es ∨ Event.extWr a v ∈ es := by
  induction es with
  | nil => cases h
  | cons e es ih =>
    rw [lastWrite_cons, Option.or_eq_some_iff] at h
    obtain h | ⟨-, h⟩ := h
    · exact (ih h).imp (List.mem_cons_of_mem e) (List.mem_cons_of_mem e)
    · cases e with
      | rd b u => cases h
      | wr b u =>
        obtain ⟨rfl, rfl⟩ : b = a ∧ u = v := by simpa [lastWrite] using h
        exact .inl List.mem_cons_self
      | extWr b u =>
        obtain ⟨rfl, rfl⟩ : b = a ∧ u = v := by simpa [lastWrite] using h
        exact .inr List.mem_cons_self

/-- `t` comes from `s` by the events `es`: the trace records them and memory is their replay. -/
structure Records (s t : State) (es : List Event) : Prop where
  trace : t.trace = s.trace ++ es
  mem : t.mem = Memory.replay s.mem es

theorem Records.trans {s t u : State} {es fs : List Event} (h : Records s t es) (g : Records t u fs) :
    Records s u (es ++ fs) where
  trace := by rw [g.trace, h.trace, List.append_assoc]
  mem := by rw [g.mem, h.mem, Memory.replay_append]

theorem Records.traceExplainsMem {s t : State} {es : List Event} (h : Records s t es)
    (hs : s.TraceExplainsMem) : t.TraceExplainsMem := by
  intro a
  rw [h.mem, h.trace, Memory.read_replay, lastWrite_append, hs a]

end Sys2Proof.Machine
end

section
/-! Which marks and which access a completed operation leaves, and that the access is at a valid address
(R34, R41, R134). -/
namespace Sys2Proof.Machine

/-- An access at an invalid address is a cause of its operation (R34). -/
theorem addr_mem_causesOf {cfg : Config} {i : Instr} {site : Site} (hi : accessOf cfg i = some site)
    (ha : validAddr cfg site.addr = false) : .addr site.addr ∈ causesOf cfg i := by
  have hcause : Violation.addr site.addr ∈ addrCause cfg site.addr := mem_addrCause.2 ⟨ha, rfl⟩
  cases i with
  | regRead | regWrite => cases hi; exact hcause
  | portPoll | setCellColor | setBorder => cases hi; exact List.mem_append_right _ hcause
  | attrEncode | attrDecode | portDecode | cellAddress => cases hi

/-- The access of a completed operation is at a valid address (R34). -/
theorem validAddr_of_exec {i : Instr} {s t : State} {site : Site} (h : exec i s = .next t)
    (hi : accessOf s.cfg i = some site) : validAddr s.cfg site.addr = true := by
  obtain ⟨hc, -⟩ := exec_next_iff.1 h
  by_contra ha
  cases hc _ (addr_mem_causesOf hi (Bool.eq_false_iff.2 ha))

@[simp] theorem accessed_viol (s : State) (i : Instr) : (accessed s i).viol = s.viol := by
  cases i <;> rfl

theorem exec_viol {i : Instr} {s t : State} (h : exec i s = .next t) :
    t.viol = addMarks s.viol (causesOf s.cfg i) := by
  obtain ⟨-, rfl⟩ := exec_next_iff.1 h
  simp

theorem not_mem_addrCause {cfg : Config} {a : Address} {v : Violation} (hr : v.refuses = false) :
    v ∉ addrCause cfg a := fun hv => by
  obtain ⟨-, rfl⟩ := mem_addrCause.1 hv
  cases hr

theorem not_mem_colorCause {c : Nat} {v : Violation} (hr : v.refuses = false) : v ∉ colorCause c := fun hv => by
  obtain ⟨-, rfl⟩ := mem_colorCause.1 hv
  cases hr

/-- The one mark with which an operation can go on; none where every cause refuses (R134). -/
def continueMark (cfg : Config) : Instr → Option Violation
  | .regRead _ => none
  | .regWrite _ _ => none
  | .attrEncode _ _ _ _ => none
  | .attrDecode _ => none
  | .portDecode _ => none
  | .portPoll => some (.unresolved cfg.inputPortAddr)
  | .cellAddress _ _ => none
  | .setCellColor x y _ => some (.cell x y)
  | .setBorder _ => some (.unresolved cfg.borderAddr)

/-- A cause that does not refuse is the operation's `continueMark`. -/
theorem continueMark_of_mem_causesOf {cfg : Config} {i : Instr} {v : Violation} (hv : v ∈ causesOf cfg i)
    (hr : v.refuses = false) : continueMark cfg i = some v := by
  cases i with
  | regRead | regWrite => exact absurd hv (not_mem_addrCause hr)
  | attrEncode =>
    have hpaper := (List.mem_append.1 hv).resolve_left (not_mem_colorCause hr)
    exact absurd hpaper (not_mem_colorCause hr)
  | attrDecode | portDecode | cellAddress => cases hv
  | portPoll =>
    have hu := (List.mem_append.1 hv).resolve_right (not_mem_addrCause hr)
    exact congrArg some (mem_unresolvedCause.1 hu).2.symm
  | setCellColor =>
    have hcell := (List.mem_append.1 hv).resolve_right (not_mem_addrCause hr)
    exact congrArg some (mem_cellCause.1 hcell).2.symm
  | setBorder =>
    have hcu := (List.mem_append.1 hv).resolve_right (not_mem_addrCause hr)
    have hu := (List.mem_append.1 hcu).resolve_left (not_mem_colorCause hr)
    exact congrArg some (mem_unresolvedCause.1 hu).2.symm

/-- A completed operation removes no mark (R133). -/
theorem viol_subset_of_exec {i : Instr} {s t : State} (h : exec i s = .next t) : ∀ v ∈ s.viol, v ∈ t.viol :=
  fun v hv => by
    rw [exec_viol h]
    exact mem_addMarks.2 (.inl hv)

/-- A completed operation adds at most its `continueMark` (R134). -/
theorem mem_viol_of_exec {i : Instr} {s t : State} {mark : Violation} (h : exec i s = .next t)
    (hm : continueMark s.cfg i = some mark) : ∀ v ∈ t.viol, v ∈ s.viol ∨ v = mark := by
  obtain ⟨hc, -⟩ := exec_next_iff.1 h
  intro v hv
  rw [exec_viol h, mem_addMarks] at hv
  refine hv.imp_right fun hv => Option.some.inj ?_
  rw [← hm, continueMark_of_mem_causesOf hv (hc v hv)]

/-- With no `continueMark`, a completed operation leaves the marks as they were. -/
theorem viol_eq_of_exec {i : Instr} {s t : State} (h : exec i s = .next t) (hm : continueMark s.cfg i = none) :
    t.viol = s.viol := by
  obtain ⟨hc, -⟩ := exec_next_iff.1 h
  have hnil : causesOf s.cfg i = [] := List.eq_nil_iff_forall_not_mem.2 fun v hv => by
    have hsome := continueMark_of_mem_causesOf hv (hc v hv)
    rw [hm] at hsome
    cases hsome
  rw [exec_viol h, hnil, addMarks]

theorem exec_sameRest {i : Instr} {s t : State} (h : exec i s = .next t) : SameRest s t := by
  obtain ⟨hcfg, hents, hprogram, hpc, hdrawing, hnames, hagent⟩ := exec_keeps h
  exact ⟨hcfg, hents, hprogram, hpc, hdrawing, hnames, hagent⟩

/-- The effect of a completed read (R36, R71, R92). -/
theorem exec_reads {i : Instr} {s t : State} {a : Address} (h : exec i s = .next t)
    (hi : accessOf s.cfg i = some (.reads a)) :
    t.mem = s.mem ∧ t.draws = s.draws + 1 ∧
      ∃ v, t.trace = s.trace ++ [.rd a v] ∧ t.responses = s.responses ++ [.byte v] := by
  obtain ⟨cs, -, ⟨r, hn, -⟩ | ⟨b, v, hr, rfl⟩ | ⟨b, v, hw, -⟩⟩ := exec_cases h
  · rw [hi] at hn; cases hn
  · rw [hi] at hr; cases hr; exact ⟨rfl, rfl, v, rfl, rfl⟩
  · rw [hi] at hw; cases hw

/-- The effect of a completed write (R37, R72, R102, R103). -/
theorem exec_writes {i : Instr} {s t : State} {a : Address} {v : Byte} (h : exec i s = .next t)
    (hi : accessOf s.cfg i = some (.writes a v)) :
    t.mem = Memory.write s.mem a v ∧ t.draws = s.draws ∧ t.trace = s.trace ++ [.wr a v] ∧
      t.responses = s.responses ++ [.done] := by
  obtain ⟨cs, -, ⟨r, hn, -⟩ | ⟨b, u, hr, -⟩ | ⟨b, u, hw, rfl⟩⟩ := exec_cases h
  · rw [hi] at hn; cases hn
  · rw [hi] at hr; cases hr
  · rw [hi] at hw; cases hw; exact ⟨rfl, rfl, rfl, rfl⟩

/-- A completed write leaves every other byte (R37). -/
theorem read_other_of_exec_writes {i : Instr} {s t : State} {a : Address} {v : Byte}
    (h : exec i s = .next t) (hi : accessOf s.cfg i = some (.writes a v)) :
    ∀ b : Address, b ≠ a → Memory.read t.mem b = Memory.read s.mem b := fun b hb => by
  rw [(exec_writes h hi).1, Memory.read_write_other s.mem v hb]

end Sys2Proof.Machine
end

section
/-! The events a step records: the external agent's writes, then at most one access (R41, R43, R44). -/
namespace Sys2Proof.Machine

/-- The events of at most one access, at a valid address (R34, R41). -/
inductive AtMostOneValidAccess (cfg : Config) : List Event → Prop
  | none : AtMostOneValidAccess cfg []
  | read {a : Address} {v : Byte} (ha : validAddr cfg a = true) : AtMostOneValidAccess cfg [.rd a v]
  | write {a : Address} {v : Byte} (ha : validAddr cfg a = true) : AtMostOneValidAccess cfg [.wr a v]

/-- A completed operation records at most one access. -/
theorem exec_records {i : Instr} {s t : State} (h : exec i s = .next t) :
    ∃ blk, AtMostOneValidAccess s.cfg blk ∧ Records s t blk := by
  obtain ⟨cs, -, ⟨r, -, rfl⟩ | ⟨a, v, hi, rfl⟩ | ⟨a, v, hi, rfl⟩⟩ := exec_cases h
  · exact ⟨[], .none, (List.append_nil _).symm, rfl⟩
  · exact ⟨[.rd a v], .read (validAddr_of_exec h hi), rfl, rfl⟩
  · exact ⟨[.wr a v], .write (validAddr_of_exec h hi), rfl, rfl⟩

/-- A step of the requester records at most one access. -/
theorem requesterStep_records {s t : State} (h : requesterStep s = .next t) :
    ∃ blk, AtMostOneValidAccess s.cfg blk ∧ Records s t blk := by
  obtain rfl | ⟨target, rfl⟩ | ⟨e, es, -, -, rfl⟩ | ⟨i, u, hu, pc, drawing, names, rfl, -⟩ :=
    requesterStep_cases h
  case inr.inr.inr =>
    obtain ⟨blk, hblk, hrec⟩ := exec_records hu
    exact ⟨blk, hblk, hrec.trace, hrec.mem⟩
  all_goals exact ⟨[], .none, (List.append_nil _).symm, rfl⟩

/-- The events of the external agent's turn (R38, R44). -/
def State.extEvents (s : State) : List Event := s.extWrites.map fun e => .extWr e.addr e.value

theorem applyExt_eq_replay (m : Memory) (es : List ExtWrite) :
    applyExt m es = Memory.replay m (es.map fun e => .extWr e.addr e.value) := by
  induction es generalizing m with
  | nil => rfl
  | cons e es ih => exact ih _

theorem externalTurn_records (s : State) : Records s s.externalTurn s.extEvents where
  trace := rfl
  mem := applyExt_eq_replay s.mem s.extWrites

/-- A step records the external agent's writes and then at most one access (R41, R43). -/
theorem step_records {s t : State} (h : step s = .next t) :
    ∃ blk, AtMostOneValidAccess s.cfg blk ∧ Records s t (s.extEvents ++ blk) := by
  obtain ⟨blk, hblk, hrec⟩ := requesterStep_records (s := s.externalTurn) h
  exact ⟨blk, hblk, (externalTurn_records s).trans hrec⟩

/-- Settles O48: a step replays in memory the events it adds to the trace. -/
theorem memoryIsTheTraceReplayed : Obligations.MemoryIsTheTraceReplayed := by
  intro s t hs h
  obtain ⟨blk, -, hrec⟩ := step_records h
  exact hrec.traceExplainsMem hs

/-- The external agent's events are writes at addresses of `ExtMutable` (R44). -/
theorem mem_extEvents {s : State} {e : Event} (h : e ∈ s.extEvents) :
    ∃ a v, e = .extWr a v ∧ extMutable s.cfg a = true := by
  obtain ⟨w, hw, rfl⟩ := List.mem_map.1 h
  exact ⟨w.addr, w.value, rfl, extWrites_mutable hw⟩

theorem wr_not_mem_extEvents (s : State) (a : Address) (v : Byte) : Event.wr a v ∉ s.extEvents := fun h => by
  obtain ⟨b, u, he, -⟩ := mem_extEvents h
  cases he

/-- An access of the block is no event of the external agent. -/
theorem AtMostOneValidAccess.extWr_not_mem {cfg : Config} {blk : List Event} (h : AtMostOneValidAccess cfg blk)
    (a : Address) (v : Byte) : Event.extWr a v ∉ blk := by
  cases h <;> simp

/-- A write among the events of at most one access is all of them. -/
theorem AtMostOneValidAccess.eq_of_mem_wr {cfg : Config} {blk : List Event} (h : AtMostOneValidAccess cfg blk)
    {a : Address} {v : Byte} (hv : Event.wr a v ∈ blk) : blk = [.wr a v] := by
  cases h with
  | none => cases hv
  | read => simp at hv
  | write => rw [List.mem_singleton.1 hv]

/-- Settles O49: the events are those of `step_records`, and a byte without a write among them is kept by
their replay. -/
theorem oneAccessPerStep : Obligations.OneAccessPerStep := by
  intro s t h
  obtain ⟨blk, hblk, hrec⟩ := step_records h
  refine ⟨s.extEvents, blk, by rw [hrec.trace, List.append_assoc], fun e => mem_extEvents, ?_, ?_⟩
  · cases hblk with
    | none => exact .inl rfl
    | read => exact .inr (.inl ⟨_, _, rfl⟩)
    | write => exact .inr (.inr ⟨_, _, rfl⟩)
  · intro a hext hwr
    have hnone : lastWrite a (s.extEvents ++ blk) = none := by
      refine Option.eq_none_iff_forall_ne_some.2 fun v hv => ?_
      obtain hv | hv := mem_of_lastWrite hv <;> obtain hv | hv := List.mem_append.1 hv
      · exact wr_not_mem_extEvents s a v hv
      · exact hwr v (hblk.eq_of_mem_wr hv)
      · exact hext v hv
      · exact hblk.extWr_not_mem a v hv
    rw [hrec.mem, Memory.read_replay, hnone, Option.none_or]

@[simp] theorem blockSites_append (es fs : List Event) :
    blockSites (es ++ fs) = blockSites es ++ blockSites fs := List.filterMap_append

/-- The external agent's events are no accesses of the block (R38). -/
@[simp] theorem blockSites_extEvents (s : State) : blockSites s.extEvents = [] := by
  refine List.filterMap_eq_nil_iff.2 fun e he => ?_
  obtain ⟨a, v, rfl, -⟩ := mem_extEvents he
  rfl

theorem AtMostOneValidAccess.validAddr {cfg : Config} {blk : List Event} (h : AtMostOneValidAccess cfg blk)
    {site : Site} (hsite : site ∈ blockSites blk) : validAddr cfg site.addr = true := by
  cases h with
  | none => cases hsite
  | read ha => cases List.mem_singleton.1 hsite; exact ha
  | write ha => cases List.mem_singleton.1 hsite; exact ha

/-- Settles O50: of the events a step adds, only the access of the block is at a site. -/
theorem accessesAreAtValidAddresses : Obligations.AccessesAreAtValidAddresses := by
  intro s t h site hsite
  obtain ⟨blk, hblk, hrec⟩ := step_records h
  rw [hrec.trace, List.drop_left, blockSites_append, blockSites_extEvents, List.nil_append] at hsite
  exact hblk.validAddr hsite

end Sys2Proof.Machine
end

section
/-! The invariant of the state over a step (R21, R30, R119). -/
namespace Sys2Proof.Machine

/-- The external agent touches neither the marks nor the caller. -/
theorem externalTurn_inv {s : State} (hs : s.Inv) : s.externalTurn.Inv where
  memWf := applyExt_wf hs.memWf s.extWrites
  violNodup := hs.violNodup
  drawing := hs.drawing

theorem exec_inv {i : Instr} {s t : State} (hs : s.Inv) (h : exec i s = .next t) : t.Inv := by
  obtain ⟨blk, -, hrec⟩ := exec_records h
  have hrest := exec_sameRest h
  exact {
    memWf := hrec.mem ▸ Memory.replay_wf hs.memWf blk
    violNodup := exec_viol h ▸ addMarks_nodup hs.violNodup _
    drawing := by rw [hrest.drawing, hrest.ents]; exact hs.drawing }

theorem requesterStep_inv {s t : State} (hs : s.Inv) (h : requesterStep s = .next t) : t.Inv := by
  obtain rfl | ⟨target, rfl⟩ | ⟨e, es, -, -, rfl⟩ | ⟨i, u, hu, pc, drawing, names, rfl, hd⟩ :=
    requesterStep_cases h
  · exact hs
  · exact ⟨hs.memWf, hs.violNodup, hs.drawing⟩
  · refine ⟨hs.memWf, hs.violNodup, fun j hj => ?_⟩
    cases hj
    exact Nat.succ_pos es.length
  · have hinv := exec_inv hs hu
    exact ⟨hinv.memWf, hinv.violNodup, fun j hj => (hd j hj).elim (hinv.drawing j) id⟩

/-- Settles O47: the external agent's turn and the requester's step keep the invariant. -/
theorem stepKeepsInvariant : Obligations.StepKeepsInvariant :=
  fun _ _ hs h => requesterStep_inv (externalTurn_inv hs) h

end Sys2Proof.Machine
end

section
/-! The external agent's turn, REG_WRITE, and the refusal of an invalid address (R34, R37, R44). -/
namespace Sys2Proof.Machine

theorem extWrites_free {s : State} (h : s.agent = .free) :
    s.extWrites = (Config.extBatch s.draws).filter fun e => extMutable s.cfg e.addr := by
  simp [State.extWrites, State.extAttempts, h]

theorem extWrites_turn {s : State} {turn : List ExtWrite} {rest : List (List ExtWrite)}
    (h : s.agent = .scripted (turn :: rest)) :
    s.extWrites = turn.filter fun e => extMutable s.cfg e.addr := by
  simp [State.extWrites, State.extAttempts, h]

theorem extWrites_idle {s : State} (h : s.agent = .scripted []) : s.extWrites = [] := by
  simp [State.extWrites, State.extAttempts, h]

/-- Settles O4: the writes are `extWrites`, by the kind of agent, and memory is `applyExt` of them. -/
theorem externalTurnWritesOnlyMutable : Obligations.ExternalTurnWritesOnlyMutable := by
  intro s
  refine ⟨s.extWrites, fun e => extWrites_mutable, fun h => ⟨extWrites_free h, ?_⟩,
    fun turn rest h => ⟨extWrites_turn h, ?_⟩, fun h => ⟨extWrites_idle h, ?_⟩, rfl,
    fun a => read_applyExt_other s.mem s.extWrites a, fun before later e hes hlater => ?_,
    rfl, rfl, rfl, rfl, rfl, rfl, rfl, rfl⟩
  case refine_4 =>
    rw [State.externalTurn_mem, hes]
    exact read_applyExt_latest s.mem before later e hlater
  all_goals rw [State.externalTurn_agent, h]; rfl

/-- REG_WRITE at a valid address marks nothing and completes with its write (R72). -/
theorem exec_regWrite_valid {s : State} {a : Address} (d : Byte) (h : validAddr s.cfg a = true) :
    exec (.regWrite a d) s = .next ((s.memWrite a d).respond .done) := by
  rw [exec_regWrite, execRegWrite, addrCause_valid h]
  exact checked_pass _ s nofun

/-- Settles O16: the write is `Memory.write`, whose reads are known. -/
theorem regWriteSetsTheByte : Obligations.RegWriteSetsTheByte := fun s a d h =>
  ⟨Memory.write s.mem a d, exec_regWrite_valid d h, Memory.read_write_same s.mem a d,
    fun _ hb => Memory.read_write_other s.mem d hb⟩

/-- An operation with a "refuse" cause is refused with all its causes marked (R134, R135). -/
theorem exec_refused {i : Instr} {s : State} {v : Violation} (hv : v ∈ causesOf s.cfg i)
    (hr : v.refuses = true) : exec i s = .refused (.violated (addMarks s.viol (causesOf s.cfg i))) := by
  rw [exec_eq_checked]
  exact checked_refuse _ s hv hr

/-- Settles O17: an access at an invalid address is among the causes of its operation, and REG_READ and
REG_WRITE have no other cause. -/
theorem invalidAddressIsRefused : Obligations.InvalidAddressIsRefused := by
  refine ⟨fun i s site hi ha => ?_, fun s a d ha => ?_⟩
  · have hv := addr_mem_causesOf hi ha
    exact ⟨_, exec_refused hv rfl, mem_addMarks.2 (.inr hv)⟩
  · have hv : .addr a ∈ addrCause s.cfg a := mem_addrCause.2 ⟨ha, rfl⟩
    refine ⟨addMarks s.viol (addrCause s.cfg a), exec_refused (i := .regRead a) hv rfl,
      exec_refused (i := .regWrite a d) hv rfl, fun v => ?_⟩
    simp [mem_addMarks, mem_addrCause, ha]

end Sys2Proof.Machine
end

section
/-! The frames of the reads and of the writes: what they change is said by `exec_reads` and `exec_writes`, and
which marks by `continueMark`. -/
namespace Sys2Proof.Machine

/-- Settles O39: both are reads, and differ in the marks they can leave. -/
theorem readFrame : Obligations.ReadFrame := by
  refine ⟨fun s t a h => ?_, fun s t h => ?_⟩
  · obtain ⟨hmem, hdraws, hnew⟩ := exec_reads h rfl
    exact ⟨exec_sameRest h, viol_eq_of_exec h rfl, hdraws, hnew, fun b => by rw [hmem]⟩
  · obtain ⟨hmem, hdraws, hnew⟩ := exec_reads h rfl
    exact ⟨exec_sameRest h, mem_viol_of_exec h rfl, viol_subset_of_exec h, hdraws, hnew, fun b => by rw [hmem]⟩

/-- Settles O40: all three are writes, and differ in the marks they can leave. -/
theorem writeFrame : Obligations.WriteFrame := by
  refine ⟨fun s t a d h => ?_, fun s t x y attr h => ?_, fun s t c h => ?_⟩
  · obtain ⟨-, hdraws, htrace, hresp⟩ := exec_writes h rfl
    exact ⟨exec_sameRest h, viol_eq_of_exec h rfl, hdraws, htrace, hresp, read_other_of_exec_writes h rfl⟩
  · obtain ⟨-, hdraws, htrace, hresp⟩ := exec_writes h rfl
    exact ⟨exec_sameRest h, mem_viol_of_exec h rfl, viol_subset_of_exec h, hdraws, htrace, hresp,
      read_other_of_exec_writes h rfl⟩
  · obtain ⟨-, hdraws, htrace, hresp⟩ := exec_writes h rfl
    exact ⟨exec_sameRest h, mem_viol_of_exec h rfl, viol_subset_of_exec h, hdraws, htrace, hresp,
      read_other_of_exec_writes h rfl⟩

end Sys2Proof.Machine
end

section
/-! Request words: the word of an operation is its row's `match` with the operands in the fields of its format,
and a field read back is what was placed there (R56, R57). -/
namespace Sys2Proof

theorem getLsbD_place {n : Nat} (lo : Nat) (v : BitVec n) (i : Nat) :
    (place lo v).getLsbD i = (decide (i < 32) && decide (lo ≤ i) && v.getLsbD (i - lo)) := by
  rw [place, BitVec.getLsbD_shiftLeft, BitVec.getLsbD_setWidth]
  by_cases hlo : lo ≤ i
  · by_cases hi : i < 32
    · simp [hi, hlo, show i - lo < 32 by omega]
    · simp [hi]
  · simp [hlo]

theorem getElem_argField {lo n i : Nat} (w : Word) (hi : i < n) : (argField lo n w)[i] = w.getLsbD (lo + i) :=
  BitVec.getElem_extractLsb' hi

@[simp] theorem argField_or (lo n : Nat) (v w : Word) :
    argField lo n (v ||| w) = argField lo n v ||| argField lo n w :=
  BitVec.extractLsb'_or

/-- A field is read where it was placed. -/
@[simp] theorem argField_place_same {lo n : Nat} (v : BitVec n) (h : lo + n ≤ 32) :
    argField lo n (place lo v) = v := by
  ext i hi
  have hlt : lo + i < 32 := by omega
  rw [getElem_argField, getLsbD_place]
  simp [hlt, hi]

/-- A field is zero in a word that holds only a disjoint field. -/
@[simp] theorem argField_place_disjoint {lo n lo' n' : Nat} (v : BitVec n') (h : lo + n ≤ lo' ∨ lo' + n' ≤ lo) :
    argField lo n (place lo' v) = 0 := by
  ext i hi
  rw [getElem_argField, getLsbD_place]
  obtain h | h := h
  · simp [show ¬ lo' ≤ lo + i by omega]
  · simp [BitVec.getLsbD_of_ge v (lo + i - lo') (by omega)]

/-- The `match` of a row is its operation select at bit 28 (R57). -/
theorem pattern_eq_place (m : Mnemonic) : m.pattern = place 28 (opSelect m.pattern) := by
  cases m <;> rfl

/-- No field of `arg` reads a bit of a row's `match`. -/
@[simp] theorem argField_pattern {lo n : Nat} (m : Mnemonic) (h : lo + n ≤ 28) : argField lo n m.pattern = 0 := by
  rw [pattern_eq_place, argField_place_disjoint _ (.inl h)]

/-- A field put back in its place is the word with every other bit cleared. -/
theorem place_argField (lo n : Nat) (w : Word) :
    place lo (argField lo n w) = w &&& place lo (BitVec.allOnes n) := by
  ext i hi
  by_cases hlo : lo ≤ i
  · simp [← BitVec.getLsbD_eq_getElem, getLsbD_place, hi, hlo, argField, Bool.and_comm]
  · simp [← BitVec.getLsbD_eq_getElem, getLsbD_place, hlo]

theorem ofBool_getLsbD (w : Word) (i : Nat) : BitVec.ofBool (w.getLsbD i) = argField i 1 w := by
  ext j hj
  obtain rfl : j = 0 := by omega
  simp [getElem_argField]

theorem getLsbD_eq_argField (w : Word) (i : Nat) : w.getLsbD i = (argField i 1 w)[0] := by
  rw [getElem_argField, Nat.add_zero]

theorem colorField_toNat (c : Color) : colorField c.toNat = c := by simp [colorField]

theorem toNat_colorField {c : Nat} (h : colorInRange c = true) : (colorField c).toNat = c := by
  have hc : c ≤ 7 := by simpa [colorInRange] using h
  exact Nat.mod_eq_of_lt (by omega)

theorem colorInRange_toNat (c : Color) : colorInRange c.toNat = true := by
  have hlt : c.toNat < 8 := c.isLt
  exact decide_eq_true (by omega)

/-- The operands of an operation in the fields of its format (R56). -/
def operandBits : Instr → Word
  | .regRead addr => place 8 addr
  | .regWrite addr data => place 8 addr ||| place 0 data
  | .attrEncode ink paper bright flash =>
      place 17 (BitVec.ofBool flash) ||| place 16 (BitVec.ofBool bright) ||| place 8 (colorField paper)
        ||| place 0 (colorField ink)
  | .attrDecode byte => place 0 byte
  | .portDecode byte => place 0 byte
  | .portPoll => 0
  | .cellAddress x y => place 16 x ||| place 8 y
  | .setCellColor x y attr => place 16 x ||| place 8 y ||| place 0 attr
  | .setBorder color => place 0 (colorField color)

theorem encode_eq (i : Instr) : encode i = i.mnemonic.pattern ||| operandBits i := by
  cases i <;> simp only [encode, operandBits, BitVec.or_assoc] <;> rfl

/-- What a row reads from a word does not depend on the row's `match`. -/
theorem operation_pattern_or (m n : Mnemonic) (w : Word) : m.operation (n.pattern ||| w) = m.operation w := by
  cases m <;> simp [Mnemonic.operation, getLsbD_eq_argField, -BitVec.getLsbD_eq_getElem]

/-- The row of a well-formed operation reads the operands back from their fields (R56). -/
theorem operation_operandBits {i : Instr} (h : i.WellFormed) : i.mnemonic.operation (operandBits i) = i := by
  cases i with
  | attrEncode ink paper bright flash =>
    obtain ⟨hink, hpaper⟩ := Bool.and_eq_true_iff.1 h
    simp [Mnemonic.operation, Instr.mnemonic, operandBits, toNat_colorField hink, toNat_colorField hpaper,
      getLsbD_eq_argField, -BitVec.getLsbD_eq_getElem]
  | setBorder color => simp [Mnemonic.operation, Instr.mnemonic, operandBits, toNat_colorField h]
  | regRead | regWrite | attrDecode | portDecode | portPoll | cellAddress | setCellColor =>
    simp [Mnemonic.operation, Instr.mnemonic, operandBits]

theorem selects_iff {m : Mnemonic} {w : Word} : m.selects w = true ↔ w &&& m.mask = m.pattern := beq_iff_eq

/-- The row of an operation selects its word (R57). -/
theorem selects_encode (i : Instr) : i.mnemonic.selects (encode i) = true := by
  cases i with
  | regRead addr => exact Laws.FitsRow.regRead addr
  | regWrite addr data => exact Laws.FitsRow.regWrite addr data
  | attrEncode ink paper bright flash => exact Laws.FitsRow.attrEncode ink paper bright flash
  | attrDecode byte => exact Laws.FitsRow.attrDecode byte
  | portDecode byte => exact Laws.FitsRow.portDecode byte
  | portPoll => exact Laws.FitsRow.portPoll
  | cellAddress x y => exact Laws.FitsRow.cellAddress x y
  | setCellColor x y attr => exact Laws.FitsRow.setCellColor x y attr
  | setBorder color => exact Laws.FitsRow.setBorder color

/-- Settles O8: the row of the operation selects its word, and reads the operands back from it. -/
theorem decodeOfEncode : Obligations.DecodeOfEncode := by
  intro i hi
  rw [decode_of_selects (selects_encode i), encode_eq, operation_pattern_or, operation_operandBits hi]

/-- What a row reads is well-formed: a Color is read from 3 bits (R57, R60). -/
theorem operation_wellFormed (m : Mnemonic) (w : Word) : (m.operation w).WellFormed := by
  cases m with
  | ATTR_ENCODE => exact Bool.and_eq_true_iff.2 ⟨colorInRange_toNat _, colorInRange_toNat _⟩
  | SET_BORDER => exact colorInRange_toNat _
  | REG_READ | REG_WRITE | ATTR_DECODE | PORT_DECODE | PORT_POLL | CELL_ADDRESS | SET_CELL_COLOR => rfl

/-- The operands a row reads, put back, are the bits outside the row's mask (R57). -/
theorem operandBits_operation (m : Mnemonic) (w : Word) : operandBits (m.operation w) = w &&& ~~~m.mask := by
  cases m with
  | PORT_POLL => exact BitVec.and_zero.symm
  | REG_READ | REG_WRITE | ATTR_ENCODE | ATTR_DECODE | PORT_DECODE | CELL_ADDRESS | SET_CELL_COLOR
  | SET_BORDER =>
    simp only [Mnemonic.operation, operandBits, ofBool_getLsbD, colorField_toNat, place_argField,
      ← BitVec.and_or_distrib_left]
    rfl

@[simp] theorem operation_mnemonic (m : Mnemonic) (w : Word) : (m.operation w).mnemonic = m := by cases m <;> rfl

/-- Settles O9: the row's mask keeps its `match`, and the fields hold every other bit. -/
theorem encodeOfDecode : Obligations.EncodeOfDecode := by
  intro w i h
  obtain ⟨m, hm, rfl⟩ := selects_of_decode h
  refine ⟨operation_wellFormed m w, ?_⟩
  calc encode (m.operation w)
      = (w &&& m.mask) ||| (w &&& ~~~m.mask) := by
        rw [encode_eq, operation_mnemonic, operandBits_operation, selects_iff.1 hm]
    _ = w := by rw [← BitVec.and_or_distrib_left, BitVec.or_not_self, BitVec.and_allOnes]

/-- Settles O7: the decoder evaluates on each word. -/
theorem writtenOutWordsDecode : Obligations.WrittenOutWordsDecode :=
  ⟨rfl, rfl, rfl, rfl, rfl, rfl, rfl, rfl, rfl⟩

end Sys2Proof
end

section
/-! What a request word gets: its row's operation, or the refusal of a word without a row (R57, R59). -/
namespace Sys2Proof.Machine

/-- Settles O10: a word carries the operation select of each row it matches, and the rows differ in it. -/
theorem rowsAreDisjoint : Obligations.RowsAreDisjoint := fun _ _ _ hm hn =>
  opSelect_pattern_injective
    ((selects_opSelect (selects_iff.2 hm)).symm.trans (selects_opSelect (selects_iff.2 hn)))

/-- A word that matches no row is refused with `V_ILLEGAL` (R59). -/
theorem issueWord_of_no_row {w : Word} (h : ∀ m : Mnemonic, w &&& m.mask ≠ m.pattern) (s : State) :
    issueWord w s = refuseWord w s := by
  unfold issueWord
  cases hd : decode w with
  | error => rfl
  | ok i =>
    obtain ⟨m, hm, -⟩ := selects_of_decode hd
    exact absurd (selects_iff.1 hm) (h m)

/-- Settles O11: the step issues the word, and no row takes it. -/
theorem illegalWordIsRefused : Obligations.IllegalWordIsRefused := by
  intro s w hd hr h
  refine ⟨addMarks s.viol [.illegal w], ?_, fun v => by simp [mem_addMarks]⟩
  rw [step_of_item hd hr, issue, issueWord_of_no_row h]
  rfl

theorem wellFormed_iff {i : Instr} : i.WellFormed ↔ ∀ c ∈ colorOperands i, c ≤ 7 := by
  cases i <;> simp [Instr.WellFormed, Instr.wellFormed, colorOperands, colorInRange]

/-- No Color operand in 0 .. 7 is a cause (R83). -/
theorem colorCause_of_le {c : Nat} (h : c ≤ 7) : colorCause c = [] := if_pos h

/-- A cause that refuses an operation of Colors is its access at an invalid address (R134). -/
theorem invalid_access_of_refusing_cause {cfg : Config} {i : Instr} {v : Violation}
    (hcolors : ∀ c ∈ colorOperands i, c ≤ 7) (hv : v ∈ causesOf cfg i) (hr : v.refuses = true) :
    ∃ site, accessOf cfg i = some site ∧ validAddr cfg site.addr = false := by
  have hunresolved : ∀ {r a}, v ∉ unresolvedCause r a := fun hu => by
    rw [(mem_unresolvedCause.1 hu).2] at hr
    cases hr
  have hcell : ∀ {x y}, v ∉ cellCause x y := fun hu => by
    rw [(mem_cellCause.1 hu).2] at hr
    cases hr
  have hcolor : ∀ {c}, c ∈ colorOperands i → v ∉ colorCause c := fun hc => by
    rw [colorCause_of_le (hcolors _ hc)]
    exact List.not_mem_nil
  cases i with
  | regRead | regWrite => exact ⟨_, rfl, (mem_addrCause.1 hv).1⟩
  | attrEncode ink paper =>
    obtain hink | hpaper := List.mem_append.1 hv
    · exact absurd hink (hcolor (by simp [colorOperands]))
    · exact absurd hpaper (hcolor (by simp [colorOperands]))
  | attrDecode | portDecode | cellAddress => cases hv
  | portPoll => exact ⟨_, rfl, (mem_addrCause.1 ((List.mem_append.1 hv).resolve_left hunresolved)).1⟩
  | setCellColor => exact ⟨_, rfl, (mem_addrCause.1 ((List.mem_append.1 hv).resolve_left hcell)).1⟩
  | setBorder c =>
    have hcu : v ∉ colorCause c ++ unresolvedCause cfg.borderResolved cfg.borderAddr := fun h =>
      (List.mem_append.1 h).elim (hcolor (by simp [colorOperands])) hunresolved
    exact ⟨_, rfl, (mem_addrCause.1 ((List.mem_append.1 hv).resolve_left hcu)).1⟩

/-- An operation completes where no cause of R134 refuses it. -/
theorem exec_completes_of_allowed {i : Instr} {s : State} (h : Allowed s.cfg i) : ∃ t, exec i s = .next t := by
  refine ⟨_, exec_next_iff.2 ⟨fun v hv => ?_, rfl⟩⟩
  by_contra hr
  obtain ⟨hcolors, haddr⟩ := h
  obtain ⟨site, hsite, hinvalid⟩ := invalid_access_of_refusing_cause hcolors hv (by simpa using hr)
  simp [haddr site hsite] at hinvalid

/-- Settles O12: the operation of the word is well-formed, so only its access can refuse it. -/
theorem legalWordIsNotIllegal : Obligations.LegalWordIsNotIllegal := by
  intro s w m hd hr hm
  have hstep : step s = andThen (exec (m.operation w) s.externalTurn) fun t => .next t.advance := by
    rw [step_of_item hd hr, issue, issueWord_of_decode (decode_of_selects (selects_iff.2 hm))]
  have hcolors := wellFormed_iff.1 (operation_wellFormed m w)
  by_cases haddr : ∀ site, accessOf s.cfg (m.operation w) = some site → validAddr s.cfg site.addr = true
  · obtain ⟨t, ht⟩ := exec_completes_of_allowed (s := s.externalTurn) ⟨hcolors, haddr⟩
    exact .inl ⟨t.advance, by rw [hstep, ht, andThen]⟩
  · push Not at haddr
    obtain ⟨site, hsite, hvalid⟩ := haddr
    have hinvalid : validAddr s.cfg site.addr = false := Bool.eq_false_iff.2 hvalid
    have hmark := addr_mem_causesOf hsite hinvalid
    refine .inr ⟨addMarks s.viol (causesOf s.cfg (m.operation w)), site.addr, ?_, mem_addMarks.2 (.inr hmark),
      hinvalid⟩
    rw [hstep, exec_refused (s := s.externalTurn) hmark rfl]
    rfl

end Sys2Proof.Machine
end

section
/-! DisplayInterface: where an in-range cell lies and what a completed write leaves (R54, R102, R103). -/
namespace Sys2Proof.Machine

theorem toNat_cellAddr (cfg : Config) (x y : Coord) :
    (cellAddr cfg x y).toNat = (cfg.colorTableBase.toNat + (x.toNat + 32 * y.toNat)) % 2 ^ 16 := rfl

/-- Settles O31: the base 22528 is `0b010110` at bit 10, `32 * y` stays below it and `x` below bit 5. -/
theorem inRangeAddressIsConcatenation : Obligations.InRangeAddressIsConcatenation := by
  intro cfg x y hbase hx hy
  have haddr : (cellAddr cfg x y).toNat = 22528 + (x.toNat + 32 * y.toNat) := by
    rw [toNat_cellAddr, hbase]
    exact Nat.mod_eq_of_lt (show 22528 + _ < _ by omega)
  refine ⟨?_, ?_, ?_⟩
  all_goals
    apply BitVec.eq_of_toNat_eq
    simp only [BitVec.extractLsb'_toNat, haddr, Nat.shiftRight_eq_div_pow]
  · change _ = 22
    omega
  · omega
  · omega

/-- The Color fits in the byte with zeros above it (R53). -/
theorem borderByte_toNat {c : Nat} (h : c ≤ 7) : (borderByte c).toNat = c :=
  Nat.mod_eq_of_lt (by omega)

/-- SET_BORDER of a Color at a valid address completes with its write (R103). -/
theorem exec_setBorder_valid {s : State} {c : Nat} (hc : c ≤ 7) (ha : validAddr s.cfg s.cfg.borderAddr = true) :
    exec (.setBorder c) s = .next
      (((s.violate (unresolvedCause s.cfg.borderResolved s.cfg.borderAddr)).memWrite s.cfg.borderAddr
        (borderByte c)).respond .done) := by
  rw [exec_setBorder, execSetBorder, colorCause_of_le hc, addrCause_valid ha, List.nil_append, List.append_nil]
  exact checked_pass _ s fun v hv => by rw [(mem_unresolvedCause.1 hv).2]; rfl

/-- Settles O37: the write is `Memory.write`, and the one cause is `unresolvedCause`. -/
theorem setBorderWritesTheColor : Obligations.SetBorderWritesTheColor := by
  intro s c hc ha
  refine ⟨Memory.write s.mem s.cfg.borderAddr (borderByte c), _, borderByte c, borderByte_toNat hc,
    exec_setBorder_valid hc ha, Memory.read_write_same .., fun _ hb => Memory.read_write_other s.mem _ hb, ?_, ?_⟩
  · intro hres
    rw [hres]
    rfl
  · intro hres v
    simp [mem_addMarks, mem_unresolvedCause, hres]

/-- Settles O41: the draw is an operation without a Color operand, and its one access is valid. -/
theorem entityDrawRepaintsOneCell : Obligations.EntityDrawRepaintsOneCell := by
  intro s i e hd hr he ha
  obtain ⟨u, hu⟩ := exec_completes_of_allowed (i := .setCellColor e.x e.y e.attr) (s := s.externalTurn)
    ⟨nofun, fun site hsite => by cases hsite; exact ha⟩
  obtain ⟨-, hents, -, hpc, -⟩ := exec_keeps hu
  obtain ⟨-, -, htrace, -⟩ := exec_writes hu rfl
  have hdraw : drawEntity i s.externalTurn = .next u := by
    simp only [drawEntity, State.externalTurn_ents, he, hu]
  refine ⟨u, hu, ?_, hents, htrace⟩
  rw [step_of_item hd hr, issue, hdraw, andThen, State.advance, hpc]
  rfl

end Sys2Proof.Machine
end

section
/-! The text form: its operand values, its operations, and the names it binds (R62). -/
namespace Sys2Proof.Machine

@[simp] theorem portValue_toNat {n : Nat} (v : BitVec n) : portValue n v.toNat = some v := by
  simp [portValue, v.isLt]

@[simp] theorem boolValue_toNat (b : Bool) : boolValue b.toNat = some b := by
  cases b <;> rfl

/-- Settles O13: every operand fits its port, so `assemble` reads each back. -/
theorem textFormSpellsEveryOperation : Obligations.TextFormSpellsEveryOperation := by
  intro i
  cases i <;> simp [Instr.mnemonic, operandsOf, assemble]

theorem operandValues_eq_mapM (names : List (String × Nat)) (args : List Operand) :
    operandValues names args = args.mapM fun o => o.value names := by
  induction args with
  | nil => rfl
  | cons o os ih =>
    rw [operandValues, ih, List.mapM_cons]
    cases o.value names with
    | none => rfl
    | some v => cases os.mapM fun o => o.value names <;> rfl

/-- `-> name` binds the newest response (R62). -/
theorem bindResult_some {s : State} {rs : List Response} {r : Response} (h : s.responses = rs ++ [r])
    (id : String) : s.bindResult (some id) = { s with names := (id, r.pack.toNat) :: s.names } := by
  simp [State.bindResult, h]

/-- A line that spells an operation is issued as it, and its result is bound (R62). -/
theorem issueCall_of_assemble {op : Mnemonic} {args : List Operand} {bind : Option String} {vs : List Nat}
    {i : Instr} {s : State} (hvs : operandValues s.names args = some vs) (hi : assemble op vs = some i) :
    issueCall ⟨op, args, bind⟩ s = andThen (exec i s) fun t => .next (t.bindResult bind).advance := by
  simp [issueCall, assembleCall, hvs, hi]

/-- Settles O3: the step issues the line, and the line issues its operation. -/
theorem stepRunsTextForm : Obligations.StepRunsTextForm := by
  intro s op args bind vs i hd hr hvs hi
  rw [← operandValues_eq_mapM] at hvs
  have hstep : step s = andThen (exec i s.externalTurn) fun t => .next (t.bindResult bind).advance := by
    rw [step_of_item hd hr, issue, issueCall_of_assemble (s := s.externalTurn) hvs hi]
  refine ⟨fun t ht => ⟨?_, ?_⟩, fun q hq => by rw [hstep, hq, andThen]⟩
  · rintro rfl
    rw [hstep, ht, andThen]
    rfl
  · rintro id rfl
    obtain ⟨r, hresp⟩ := exec_responds ht
    refine ⟨r, hresp, ?_⟩
    rw [hstep, ht, andThen, bindResult_some hresp]
    rfl

end Sys2Proof.Machine
end

section
/-! The response words (R58): every field has its own bits, and a field of a response lies where the same field of
a request lies (R56). -/
namespace Sys2Proof.Machine

theorem toNat_placeIn {lo n : Nat} (v : BitVec n) (h : lo + n ≤ 24) : (placeIn lo v).toNat = v.toNat <<< lo := by
  have hshift : v.toNat <<< lo < 2 ^ 24 := calc
    v.toNat <<< lo = v.toNat * 2 ^ lo := Nat.shiftLeft_eq ..
    _ < 2 ^ n * 2 ^ lo := Nat.mul_lt_mul_of_pos_right v.isLt (Nat.two_pow_pos lo)
    _ = 2 ^ (lo + n) := by rw [Nat.add_comm, Nat.pow_add]
    _ ≤ 2 ^ 24 := Nat.pow_le_pow_right (by decide) h
  have hv : v.toNat < 2 ^ 24 := v.isLt.trans_le (Nat.pow_le_pow_right (by decide) (by omega))
  rw [placeIn, BitVec.toNat_shiftLeft, BitVec.toNat_setWidth, Nat.mod_eq_of_lt hv, Nat.mod_eq_of_lt hshift]

/-- A field placed above the bits of a word adds to it. -/
theorem toNat_or_placeIn {lo n : Nat} {w : ResponseWord} (v : BitVec n) (hw : w.toNat < 2 ^ lo)
    (h : lo + n ≤ 24) : (w ||| placeIn lo v).toNat = w.toNat + 2 ^ lo * v.toNat := by
  rw [BitVec.toNat_or, toNat_placeIn v h, Nat.or_comm, ← Nat.shiftLeft_add_eq_or_of_lt hw, Nat.shiftLeft_eq,
    Nat.mul_comm, Nat.add_comm]

/-- The response word of ATTR_DECODE as a number: each field lies above the one before it (R58). -/
theorem toNat_pack_fields (ink paper : Color) (bright flash : Bool) :
    (Response.fields ⟨ink, paper, bright, flash⟩).pack.toNat =
      ink.toNat + 2 ^ 8 * paper.toNat + 2 ^ 16 * bright.toNat + 2 ^ 17 * flash.toNat := by
  have hpack : (Response.fields ⟨ink, paper, bright, flash⟩).pack =
      placeIn 0 ink ||| placeIn 8 paper ||| placeIn 16 (BitVec.ofBool bright)
        ||| placeIn 17 (BitVec.ofBool flash) := by
    rw [Response.pack, BitVec.or_comm _ (placeIn 0 ink), BitVec.or_comm _ (placeIn 8 paper),
      BitVec.or_comm (placeIn 17 _), BitVec.or_assoc, BitVec.or_assoc]
  have hink : (placeIn 0 ink).toNat = ink.toNat := toNat_placeIn ink (by decide)
  have hpaper := toNat_or_placeIn (w := placeIn 0 ink) (lo := 8) paper (by omega) (by decide)
  have hbright := toNat_or_placeIn (lo := 16) (BitVec.ofBool bright) (hpaper.trans_lt (by omega)) (by decide)
  rw [BitVec.toNat_ofBool] at hbright
  have hflash := toNat_or_placeIn (lo := 17) (BitVec.ofBool flash)
    (hbright.trans_lt (by have := bright.toNat_lt; omega)) (by decide)
  rw [hpack, hflash, hbright, hpaper, hink, BitVec.toNat_ofBool]

/-- Settles O14: a byte and an address are placed at bit 0, the five signals are 32 tuples of bits. -/
theorem responseWordLayout : Obligations.ResponseWordLayout :=
  ⟨fun b => toNat_placeIn b (by decide), toNat_pack_fields, by decide, fun a => toNat_placeIn a (by decide), rfl⟩

/-- A field lies in the low 24 bits of a request word where it lies in a response word. -/
theorem setWidth_place {n : Nat} (lo : Nat) (v : BitVec n) : (place lo v).setWidth 24 = placeIn lo v := by
  ext i hi
  simp [place, placeIn]

/-- ATTR_DECODE gives the fields back that ATTR_ENCODE put into the byte (R84), for each of the 256 tuples. -/
theorem decodeAttr_encodeAttr : ∀ (ink paper : Color) (bright flash : Bool),
    decodeAttr (encodeAttr ink.toNat paper.toNat bright flash) = ⟨ink, paper, bright, flash⟩ := by
  decide

/-- Settles O24: both words hold the same fields at the same bits. -/
theorem decodedFieldsHaveFormatF : Obligations.DecodedFieldsHaveFormatF := by
  intro ink paper bright flash
  rw [decodeAttr_encodeAttr, ← BitVec.toNat_setWidth, encode_eq, BitVec.setWidth_or]
  simp [Response.pack, operandBits, setWidth_place, colorField_toNat, Instr.mnemonic, Mnemonic.pattern]

end Sys2Proof.Machine
end

section
/-! Register access over a sequence: the order of the accesses (R73), and a read right after a write
(R71 corner case 2, R154). -/
namespace Sys2Proof.Machine

/-- The external agent's turn makes no access of the block (R38, R44). -/
@[simp] theorem blockSites_externalTurn (s : State) : blockSites s.externalTurn.trace = blockSites s.trace := by
  rw [(externalTurn_records s).trace, blockSites_append, blockSites_extEvents, List.append_nil]

/-- A completed operation makes its one access, or none where it is pure (R41). -/
theorem blockSites_of_exec {i : Instr} {s t : State} (h : exec i s = .next t) :
    blockSites t.trace = blockSites s.trace ++ (accessOf s.cfg i).toList := by
  obtain ⟨cs, -, ⟨r, hi, rfl⟩ | ⟨a, v, hi, rfl⟩ | ⟨a, v, hi, rfl⟩⟩ := exec_cases h
  · simp [hi]
  · rw [hi]; exact blockSites_append s.trace [.rd a v]
  · rw [hi]; exact blockSites_append s.trace [.wr a v]

/-- Settles O51, by induction on the operations: the agent's turn adds no access, the first operation adds
its own, and both keep the configuration that gives the addresses of the rest. -/
theorem volatileContract : Obligations.VolatileContract := by
  intro is
  induction is with
  | nil =>
    intro s t h
    obtain rfl : s = t := Host.Outcome.next.inj h
    exact (List.append_nil _).symm
  | cons i is ih =>
    intro s t h
    obtain ⟨u, hu, ht⟩ := andThen_next h
    have hcfg : u.cfg = s.cfg := (exec_sameRest hu).cfg
    calc blockSites t.trace
        = blockSites u.trace ++ is.filterMap (accessOf u.cfg) := ih u t ht
      _ = blockSites s.trace ++ (accessOf s.cfg i).toList ++ is.filterMap (accessOf s.cfg) := by
        rw [blockSites_of_exec hu, blockSites_externalTurn, State.externalTurn_cfg, hcfg]
      _ = blockSites s.trace ++ (i :: is).filterMap (accessOf s.cfg) := by
        cases hi : accessOf s.cfg i <;> simp [hi]

/-- A read of a stored byte returns it, the border register apart where it may be changed from outside (R18, R36). -/
theorem readValue_of_read {s : State} {a : Address} {v : Byte} (h : Memory.read s.mem a = some v)
    (ha : ¬ (a = s.cfg.borderAddr ∧ extMutable s.cfg a = true)) : s.readValue a = v := by
  rw [readValue_eq, if_neg ha, h, Option.getD_some]

/-- Settles O18: the write completed, so the address is valid for the read too, and the agent's turn keeps
the byte written. -/
theorem readAfterWriteReturnsIt : Obligations.ReadAfterWriteReturnsIt := by
  intro s t a d h hext hborder
  have hcfg : t.externalTurn.cfg = s.cfg := (exec_sameRest h).cfg
  have hvalid : validAddr t.externalTurn.cfg a = true := hcfg ▸ validAddr_of_exec h rfl
  obtain ⟨hmem, -, -, hresponses⟩ := exec_writes h rfl
  have hread : Memory.read t.externalTurn.mem a = some d := by
    rw [State.externalTurn_mem, read_applyExt_other _ _ _ hext, hmem, Memory.read_write_same]
  have hvalue : t.externalTurn.readValue a = d := readValue_of_read hread (hcfg ▸ hborder)
  exact ⟨_, exec_regRead_valid hvalid, by simp [hvalue, hresponses]⟩

end Sys2Proof.Machine
end

section
/-! ColorAttribute (R81 to R85): the attribute byte as a number, its four fields, and what ATTR_ENCODE and
ATTR_DECODE answer. And the frame of the operations that make no access (R41). -/
namespace Sys2Proof.Machine

/-- The sum of the fields is at most 255, so the byte holds it (R85). -/
theorem toNat_encodeAttr {ink paper : Nat} (bright flash : Bool) (hink : ink ≤ 7) (hpaper : paper ≤ 7) :
    (encodeAttr ink paper bright flash).toNat =
      ink + paper * 8 + (if bright then 64 else 0) + (if flash then 128 else 0) :=
  Nat.mod_eq_of_lt (show _ < 256 by split <;> split <;> omega)

/-- A multiple of `2 ^ k` added to a number below `2 ^ k` shares no bit with it. -/
theorem add_mul_two_pow_eq_or {n k : Nat} (h : n < 2 ^ k) (a : Nat) : n + a * 2 ^ k = n ||| a * 2 ^ k := by
  rw [Nat.mul_comm, Nat.add_comm, Nat.or_comm, Nat.two_pow_add_eq_or_of_lt h]

/-- A flag at bit `k` above a number below `2 ^ k` is a multiple of `2 ^ k`. -/
theorem add_flag_eq_or {n k : Nat} (h : n < 2 ^ k) (b : Bool) :
    n + (if b then 2 ^ k else 0) = n ||| (if b then 2 ^ k else 0) := by
  have hflag : (if b then 2 ^ k else 0) = b.toNat * 2 ^ k := by cases b <;> simp
  rw [hflag, add_mul_two_pow_eq_or h]

/-- Settles O20: each of the fields lies above the sum of those before it, so adding it is OR. -/
theorem encodingSumIsBitwiseOr : Obligations.EncodingSumIsBitwiseOr := by
  intro ink paper bright flash hink hpaper
  have hbyte := toNat_encodeAttr bright flash hink hpaper
  have hcolors : ink + paper * 8 ≤ 63 := by omega
  have hsum : ink + paper * 8 + (if bright then 64 else 0) ≤ 127 := by split <;> omega
  have hor : ink + paper * 8 + (if bright then 64 else 0) + (if flash then 128 else 0) =
      ink ||| (paper * 8) ||| (if bright then 64 else 0) ||| (if flash then 128 else 0) := calc
    _ = (ink + paper * 8 + (if bright then 64 else 0)) ||| (if flash then 128 else 0) :=
      add_flag_eq_or (k := 7) (by omega) flash
    _ = (ink + paper * 8) ||| (if bright then 64 else 0) ||| (if flash then 128 else 0) :=
      congrArg (· ||| _) (add_flag_eq_or (k := 6) (by omega) bright)
    _ = ink ||| (paper * 8) ||| (if bright then 64 else 0) ||| (if flash then 128 else 0) :=
      congrArg (· ||| _ ||| _) (add_mul_two_pow_eq_or (k := 3) (by omega) paper)
  exact ⟨hbyte, hor, by omega, hcolors, by omega,
    Nat.mul_mod_left .., (Nat.shiftLeft_eq paper 3).symm⟩

/-- Settles O21: the operand that is no Color is a "refuse" cause, and both operands' causes are marked. -/
theorem attrEncodeRefusesNonColors : Obligations.AttrEncodeRefusesNonColors := by
  intro s ink paper bright flash h
  obtain ⟨v, hv, hr⟩ : ∃ v ∈ colorCause ink ++ colorCause paper, v.refuses = true := by
    obtain hink | hpaper := h
    · exact ⟨_, List.mem_append_left _ (mem_colorCause.2 ⟨hink, rfl⟩), rfl⟩
    · exact ⟨_, List.mem_append_right _ (mem_colorCause.2 ⟨hpaper, rfl⟩), rfl⟩
  refine ⟨_, exec_refused (i := .attrEncode ink paper bright flash) hv hr, fun u => ?_⟩
  rw [mem_addMarks, causesOf, List.mem_append, mem_colorCause, mem_colorCause]

/-- A completed operation without an access keeps memory, the trace and the draw counter (R41). -/
theorem exec_pure {i : Instr} {s t : State} (h : exec i s = .next t) (hi : accessOf s.cfg i = none) :
    t.mem = s.mem ∧ t.trace = s.trace ∧ t.draws = s.draws := by
  obtain ⟨cs, -, ⟨r, -, rfl⟩ | ⟨a, v, hr, -⟩ | ⟨a, v, hw, -⟩⟩ := exec_cases h
  · exact ⟨rfl, rfl, rfl⟩
  · rw [hi] at hr; cases hr
  · rw [hi] at hw; cases hw

/-- Settles O38: all four make no access and have no mark with which they could go on. -/
theorem pureOperationFrame : Obligations.PureOperationFrame := by
  intro i s t hi h
  obtain ⟨haccess, hmark⟩ : accessOf s.cfg i = none ∧ continueMark s.cfg i = none := by
    obtain ⟨ink, paper, bright, flash, rfl⟩ | ⟨b, rfl⟩ | ⟨b, rfl⟩ | ⟨x, y, rfl⟩ := hi <;> exact ⟨rfl, rfl⟩
  obtain ⟨hmem, htrace, hdraws⟩ := exec_pure h haccess
  exact ⟨exec_sameRest h, htrace, viol_eq_of_exec h hmark, hdraws, exec_responds h, fun a => by rw [hmem]⟩

/-- Settles O19: Colors give no cause, and the byte is the sum. -/
theorem attrEncodeComputesTheByte : Obligations.AttrEncodeComputesTheByte := by
  intro s ink paper bright flash hink hpaper
  refine ⟨encodeAttr ink paper bright flash, toNat_encodeAttr bright flash hink hpaper, ?_⟩
  rw [exec_attrEncode, execAttrEncode, colorCause_of_le hink, colorCause_of_le hpaper]
  exact checked_pass _ s nofun

theorem toNat_decodeAttr_ink (b : Byte) : (decodeAttr b).ink.toNat = b.toNat % 8 := rfl

theorem toNat_decodeAttr_paper (b : Byte) : (decodeAttr b).paper.toNat = b.toNat / 8 % 8 :=
  congrArg (· % 8) (Nat.shiftRight_eq_div_pow b.toNat 3)

theorem getLsbD_iff_div_mod {n : Nat} (v : BitVec n) (k : Nat) : v.getLsbD k = true ↔ v.toNat / 2 ^ k % 2 = 1 := by
  rw [BitVec.getLsbD, Nat.testBit_eq_decide_div_mod_eq, decide_eq_true_iff]

theorem decodeAttr_bright (b : Byte) : (decodeAttr b).bright = true ↔ b.toNat / 64 % 2 = 1 :=
  getLsbD_iff_div_mod b 6

/-- Bit 7 is the top bit of a byte, so nothing lies above it. -/
theorem decodeAttr_flash (b : Byte) : (decodeAttr b).flash = true ↔ b.toNat / 128 = 1 := by
  have hbit : (decodeAttr b).flash = true ↔ b.toNat / 128 % 2 = 1 := getLsbD_iff_div_mod b 7
  exact hbit.trans (by omega)

/-- Settles O22. -/
theorem attrDecodeSplitsTheByte : Obligations.AttrDecodeSplitsTheByte := fun _ b =>
  ⟨decodeAttr b, rfl, toNat_decodeAttr_ink b, toNat_decodeAttr_paper b, decodeAttr_bright b, decodeAttr_flash b⟩

/-- The four fields of a byte, summed at their places, are the byte (R84). -/
theorem encodeAttr_decodeAttr (b : Byte) :
    encodeAttr (decodeAttr b).ink.toNat (decodeAttr b).paper.toNat (decodeAttr b).bright (decodeAttr b).flash
      = b := by
  apply BitVec.eq_of_toNat_eq
  rw [toNat_encodeAttr _ _ (by omega) (by omega), toNat_decodeAttr_ink, toNat_decodeAttr_paper]
  simp only [decodeAttr_bright, decodeAttr_flash]
  split <;> split <;> omega

/-- Settles O23. -/
theorem attrRoundTrip : Obligations.AttrRoundTrip := ⟨decodeAttr_encodeAttr, encodeAttr_decodeAttr⟩

end Sys2Proof.Machine
end

section
/-! InputPort (R90 to R94): PORT_DECODE sees the low five bits of its byte, and PORT_POLL is the one read at the
configured address. -/
namespace Sys2Proof.Machine

/-- Settles O29: the poll appends its event and its response, the agent's turn adds no response, and the decode
appends the signals. -/
theorem pollThenDecodeDescribesOneByte : Obligations.PollThenDecodeDescribesOneByte := by
  intro s t h
  obtain ⟨-, -, v, htrace, hresponses⟩ := exec_reads h rfl
  exact ⟨v, hresponses, htrace, _, rfl, by simp [hresponses]⟩

/-- Settles O25: the five signals are bits of the byte by definition. -/
theorem portDecodeExtractsTheSignals : Obligations.PortDecodeExtractsTheSignals := fun _ _ => rfl

/-- Numbers that agree modulo `2 ^ w` agree in the bits below `w`. -/
theorem getLsbD_congr_of_mod {n k w : Nat} {b c : BitVec n} (h : b.toNat % 2 ^ w = c.toNat % 2 ^ w) (hk : k < w) :
    b.getLsbD k = c.getLsbD k := by
  have hbit : (b.toNat % 2 ^ w).testBit k = (c.toNat % 2 ^ w).testBit k := by rw [h]
  simpa [Nat.testBit_mod_two_pow, hk, BitVec.testBit_toNat] using hbit

/-- The signals depend on bits 4:0 only (R91 corner case 5). -/
theorem decodePort_congr {b c : Byte} (h : b.toNat % 2 ^ 5 = c.toNat % 2 ^ 5) : decodePort b = decodePort c := by
  simp only [decodePort, Signals.mk.injEq]
  refine ⟨?_, ?_, ?_, ?_, ?_⟩
  all_goals exact getLsbD_congr_of_mod h (by decide)

/-- The response word of PORT_DECODE holds bits 4:0 at their own places (R58). -/
theorem toNat_pack_decodePort (b : Byte) : (Response.signals (decodePort b)).pack.toNat = b.toNat % 32 := by
  obtain ⟨-, -, hsignals, -⟩ := responseWordLayout
  rw [decodePort, hsignals]
  simp only [BitVec.getLsbD, Nat.toNat_testBit]
  omega

/-- Settles O26: the byte is decoded through `decodePort`, which sees bits 4:0 only. -/
theorem portDecodeIgnoresHighBits : Obligations.PortDecodeIgnoresHighBits :=
  ⟨fun s b c h => by rw [exec_portDecode, exec_portDecode, execPortDecode, execPortDecode, decodePort_congr h],
    toNat_pack_decodePort⟩

theorem pollValue_resolved {s : State} (h : s.cfg.inputPortResolved = true) :
    pollValue s = s.readValue s.cfg.inputPortAddr := if_pos h

theorem pollValue_unresolved {s : State} (h : s.cfg.inputPortResolved = false) :
    pollValue s = Config.freeByte s.draws := if_neg (Bool.eq_false_iff.1 h)

/-- PORT_POLL at a valid address completes with its read; `V_UNRESOLVED` is its one possible mark (R92). -/
theorem exec_portPoll_valid {s : State} (h : validAddr s.cfg s.cfg.inputPortAddr = true) :
    exec .portPoll s = .next
      (((s.violate (unresolvedCause s.cfg.inputPortResolved s.cfg.inputPortAddr)).recordRead s.cfg.inputPortAddr
        (pollValue s)).respond (.byte (pollValue s))) := by
  rw [exec_portPoll, execPortPoll, addrCause_valid h, List.append_nil]
  exact checked_pass _ s fun v hv => by rw [(mem_unresolvedCause.1 hv).2]; rfl

/-- Settles O27: a resolved address gives no mark, and the byte polled is the byte read. -/
theorem portPollReadsThePort : Obligations.PortPollReadsThePort := by
  intro s hres hvalid
  have hpoll : exec .portPoll s = exec (.regRead s.cfg.inputPortAddr) s := by
    rw [exec_portPoll_valid hvalid, exec_regRead_valid hvalid, pollValue_resolved hres, hres]
    rfl
  exact ⟨hpoll, _, hpoll.trans (exec_regRead_valid hvalid)⟩

/-- Settles O28: the poll completes with its one mark, and the byte is the free value. -/
theorem unresolvedPollIsMarked : Obligations.UnresolvedPollIsMarked := by
  intro s hres hvalid
  refine ⟨addMarks s.viol [.unresolved s.cfg.inputPortAddr], ?_, fun v => ?_⟩
  · rw [exec_portPoll_valid hvalid, pollValue_unresolved hres, hres]
    rfl
  · rw [mem_addMarks, List.mem_singleton]

end Sys2Proof.Machine
end

section
/-! DisplayInterface: the cells and the table addresses (R105 to R107), and what SET_CELL_COLOR does at a valid
address and in range (R102, R104). -/
namespace Sys2Proof.Machine

/-- Settles O30: CELL_ADDRESS has no cause and no access. -/
theorem cellAddressIsTheSum : Obligations.CellAddressIsTheSum := fun s x y =>
  ⟨cellAddr s.cfg x y, toNat_cellAddr s.cfg x y, rfl⟩

/-- From the base 22528 the sum of no pair wraps around (R105). -/
theorem toNat_cellAddr_of_base {cfg : Config} (hbase : cfg.colorTableBase = 22528) (x y : Coord) :
    (cellAddr cfg x y).toNat = 22528 + (x.toNat + 32 * y.toNat) := by
  rw [toNat_cellAddr, hbase]
  exact Nat.mod_eq_of_lt (show 22528 + _ < _ by omega)

/-- From the base 22528 two pairs have one address exactly when they have one offset. -/
theorem cellAddr_eq_iff {cfg : Config} (hbase : cfg.colorTableBase = 22528) (x y x' y' : Coord) :
    cellAddr cfg x y = cellAddr cfg x' y' ↔ x.toNat + 32 * y.toNat = x'.toNat + 32 * y'.toNat := by
  rw [← toNat_eq_iff, toNat_cellAddr_of_base hbase, toNat_cellAddr_of_base hbase, Nat.add_left_cancel_iff]

/-- The base-32 digits of an offset into the table are a cell in range (R106). -/
theorem exists_cell_of_offset {o : Nat} (ho : o ≤ 767) :
    ∃ x y : Coord, x.toNat ≤ 31 ∧ y.toNat ≤ 23 ∧ x.toNat + 32 * y.toNat = o := by
  have hx : (BitVec.ofNat 8 (o % 32)).toNat = o % 32 := Nat.mod_eq_of_lt (by omega)
  have hy : (BitVec.ofNat 8 (o / 32)).toNat = o / 32 := Nat.mod_eq_of_lt (by omega)
  exact ⟨BitVec.ofNat 8 (o % 32), BitVec.ofNat 8 (o / 32), by omega, by omega, by omega⟩

/-- In range, pairs with one offset are one cell: the column is below 32, so the offset has one pair of base-32
digits (R106). -/
theorem cell_eq_of_offset_eq {x y x' y' : Coord} (hx : x.toNat ≤ 31) (hx' : x'.toNat ≤ 31)
    (h : x.toNat + 32 * y.toNat = x'.toNat + 32 * y'.toNat) : x = x' ∧ y = y' :=
  ⟨BitVec.eq_of_toNat_eq (by omega), BitVec.eq_of_toNat_eq (by omega)⟩

/-- Settles O32: the digits of the offset are the inverse, and equal offsets are one cell. -/
theorem cellsAndTableAddressesCorrespond : Obligations.CellsAndTableAddressesCorrespond := by
  intro cfg hbase
  refine ⟨fun x y hx hy => ?_, fun a hlo hhi => ?_⟩
  · rw [toNat_cellAddr_of_base hbase]
    omega
  · obtain ⟨x, y, hx, hy, ho⟩ := exists_cell_of_offset (o := a.toNat - 22528) (by omega)
    have ha : cellAddr cfg x y = a := by
      rw [← toNat_eq_iff, toNat_cellAddr_of_base hbase]
      omega
    refine ⟨(x, y), ⟨hx, hy, ha⟩, ?_⟩
    rintro ⟨x', y'⟩ ⟨hx', -, ha'⟩
    obtain ⟨rfl, rfl⟩ := cell_eq_of_offset_eq hx' hx ((cellAddr_eq_iff hbase x' y' x y).1 (ha'.trans ha.symm))
    rfl

/-- Settles O33: a completed write is at the formula address, which from the base 22528 is 22528 plus the offset. -/
theorem outOfRangePairsLand : Obligations.OutOfRangePairsLand := by
  intro cfg x y cx cy hbase
  refine ⟨?_, by omega, by omega, fun _ hcx hcy => ?_, fun ho => ?_, by omega, by omega⟩
  · rintro s t attr rfl h
    obtain ⟨-, -, htrace, -⟩ := exec_writes h rfl
    exact htrace
  · rw [cellAddr_eq_iff hbase]
    omega
  · rw [toNat_cellAddr_of_base hbase]
    omega

theorem cellInRange_iff {x y : Coord} : cellInRange x y = true ↔ x.toNat ≤ 31 ∧ y.toNat ≤ 23 := by
  simp [cellInRange]

/-- No cell in range is a cause (R104). -/
theorem cellCause_inRange {x y : Coord} (h : x.toNat ≤ 31 ∧ y.toNat ≤ 23) : cellCause x y = [] :=
  if_pos (cellInRange_iff.2 h)

/-- Out of range, `V_CELL` is the cause (R104). -/
theorem cellCause_outOfRange {x y : Coord} (h : ¬ (x.toNat ≤ 31 ∧ y.toNat ≤ 23)) :
    cellCause x y = [.cell x y] :=
  if_neg (mt cellInRange_iff.1 h)

/-- SET_CELL_COLOR at a valid address completes with its write; `V_CELL` is its one possible mark (R102). -/
theorem exec_setCellColor_valid {s : State} {x y : Coord} (attr : Byte)
    (h : validAddr s.cfg (cellAddr s.cfg x y) = true) :
    exec (.setCellColor x y attr) s = .next
      (((s.violate (cellCause x y)).memWrite (cellAddr s.cfg x y) attr).respond .done) := by
  rw [exec_setCellColor, execSetCellColor, addrCause_valid h, List.append_nil]
  exact checked_pass _ s fun v hv => by rw [(mem_cellCause.1 hv).2]; rfl

/-- Settles O34: the write is `Memory.write`, and the one cause is `cellCause`. -/
theorem setCellColorWritesTheCell : Obligations.SetCellColorWritesTheCell := by
  rintro s x y attr a rfl ha
  refine ⟨Memory.write s.mem (cellAddr s.cfg x y) attr, addMarks s.viol (cellCause x y), exec_setCellColor_valid attr ha,
    Memory.read_write_same .., fun _ hb => Memory.read_write_other s.mem _ hb, ?_, ?_⟩
  · intro hcell
    rw [cellCause_inRange hcell]
    rfl
  · intro hcell v
    rw [cellCause_outOfRange hcell, mem_addMarks, List.mem_singleton]

/-- Settles O35: in range both have the one cause `addrCause`, and both make the same write. -/
theorem setCellColorIsRegWrite : Obligations.SetCellColorIsRegWrite := by
  intro s x y attr hx hy
  have hcauses : causesOf s.cfg (.setCellColor x y attr) =
      causesOf s.cfg (.regWrite (cellAddr s.cfg x y) attr) :=
    congrArg (· ++ addrCause s.cfg (cellAddr s.cfg x y)) (cellCause_inRange ⟨hx, hy⟩)
  rw [exec_eq_checked, exec_eq_checked, hcauses]
  rfl

end Sys2Proof.Machine
end

section
/-! The reference caller: the driver's update, the loop, and one draw of an iteration (R117 to R120). -/
namespace Sys2Proof.Machine

/-- With an iteration in progress, a step makes the next draw after the external agent's turn (R119). -/
theorem step_of_drawing {s : State} {i : Nat} (hd : s.drawing = some i) :
    step s = driverDraw i s.externalTurn := by
  simp [step_def, requesterStep, hd]

/-- The row of the update is the remainder modulo 24 itself (R118). -/
theorem toNat_nextRow (y : Coord) : (nextRow y).toNat = (y.toNat + 1) % 24 :=
  Nat.mod_eq_of_lt (by omega)

/-- The update checks the row of the first entity, and moves it (R118). -/
theorem driverUpdate_cons {s : State} {e : Entity} {es : List Entity} (he : s.ents = e :: es) :
    driverUpdate s = checked (entityCause e.y)
      (fun t => .next { t with ents := { e with y := nextRow e.y } :: es, drawing := some 0 }) s := by
  rw [driverUpdate, he]

/-- No row in range is a cause (R118). -/
theorem entityCause_inRange {y : Coord} (hy : y.toNat < 24) : entityCause y = [] := if_pos hy

/-- A first entity in range is moved, and its draw comes next (R118, R119). -/
theorem driverUpdate_inRange {s : State} {e : Entity} {es : List Entity} (he : s.ents = e :: es)
    (hy : e.y.toNat < 24) :
    driverUpdate s = .next { s with ents := { e with y := nextRow e.y } :: es, drawing := some 0 } := by
  rw [driverUpdate_cons he, entityCause_inRange hy]
  rfl

/-- Settles O42: below row 24 there is no cause; from row 24 on, `V_ENTITY` is the one cause. -/
theorem driverUpdateMovesFirstEntity : Obligations.DriverUpdateMovesFirstEntity := by
  intro s e es hd hr he
  rw [step_of_item hd hr, issue]
  refine ⟨fun hy => ⟨nextRow e.y, toNat_nextRow e.y, driverUpdate_inRange he hy⟩, fun hy => ?_⟩
  refine ⟨addMarks s.viol (entityCause e.y), ?_, fun v => ?_⟩
  · rw [driverUpdate_cons (s := s.externalTurn) he]
    exact checked_refuse _ s.externalTurn (mem_entityCause.2 ⟨hy, rfl⟩) rfl
  · simp [mem_addMarks, mem_entityCause, hy]

/-- Settles O43: the loop's item is issued as the assignment to `pc`. -/
theorem loopReturns : Obligations.LoopReturns := fun _ _ hd hr => step_of_item hd hr

/-- A requester's step keeps the entities in range: only the update moves one, to a row below 24 (R118). -/
theorem requesterStep_keeps_grid {s t : State} (h : requesterStep s = .next t)
    (hs : ∀ e ∈ s.ents, e.x.toNat ≤ 31 ∧ e.y.toNat ≤ 23) : ∀ e ∈ t.ents, e.x.toNat ≤ 31 ∧ e.y.toNat ≤ 23 := by
  obtain rfl | ⟨target, rfl⟩ | ⟨e, es, he, -, rfl⟩ | ⟨i, u, hu, pc, drawing, names, rfl, -⟩ :=
    requesterStep_cases h
  · exact hs
  · exact hs
  · rw [he, List.forall_mem_cons] at hs
    obtain ⟨⟨hx, -⟩, hes⟩ := hs
    have hrow : (nextRow e.y).toNat ≤ 23 := by
      rw [toNat_nextRow]
      omega
    exact List.forall_mem_cons.2 ⟨⟨hx, hrow⟩, hes⟩
  · exact (exec_sameRest hu).ents ▸ hs

/-- Settles O45: the external agent's turn touches no entity, and the requester's step keeps the grid. -/
theorem entitiesStayOnTheGrid : Obligations.EntitiesStayOnTheGrid :=
  fun s _ h hs => requesterStep_keeps_grid (s := s.externalTurn) h hs

/-- After the draw of an entity that is not the last, the next one is drawn (R119). -/
theorem afterDraw_of_lt {i : Nat} {s : State} (h : i + 1 < s.ents.length) :
    afterDraw i s = { s with drawing := some (i + 1) } := if_pos h

/-- After the draw of the last entity the iteration is over (R119). -/
theorem afterDraw_of_eq {i : Nat} {s : State} (h : i + 1 = s.ents.length) :
    afterDraw i s = { s with drawing := none, pc := s.pc + 1 } := if_neg (by omega)

/-- A completed SET_CELL_COLOR of the entity's registers is its draw, and the iteration moves on (R117, R119). -/
theorem driverDraw_of_exec {s u : State} {i : Nat} {e : Entity} (he : s.ents[i]? = some e)
    (hu : exec (.setCellColor e.x e.y e.attr) s = .next u) : driverDraw i s = .next (afterDraw i u) := by
  simp only [driverDraw, drawEntity, he, hu, andThen]

/-- Settles O56: the draw completes with its one write, and `afterDraw` moves on. -/
theorem driverDrawRepaintsNextEntity : Obligations.DriverDrawRepaintsNextEntity := by
  intro s i e hd he ha
  have hu := exec_setCellColor_valid (s := s.externalTurn) e.attr ha
  have hstep := (step_of_drawing hd).trans (driverDraw_of_exec (s := s.externalTurn) he hu)
  refine ⟨_, hu, rfl, rfl, fun hi => ?_, fun hi => ?_⟩
  · rw [hstep, afterDraw_of_lt (by exact hi)]
  · rw [hstep, afterDraw_of_eq (by exact hi)]
    rfl

end Sys2Proof.Machine
end

section
/-! One whole DRIVER_ITERATION (R119): its accesses are the draws of the entities, in creation order. -/
namespace Sys2Proof.Machine

/-- The accesses from `s` to `t` are the draws of `ds`, in order; with an idle agent these are the only events. -/
structure Draws (s t : State) (ds : List Entity) : Prop where
  cfg : t.cfg = s.cfg
  program : t.program = s.program
  sites : blockSites t.trace = blockSites s.trace ++ ds.map fun d => .writes (cellAddr s.cfg d.x d.y) d.attr
  idle : s.agent = .scripted [] → t.agent = .scripted [] ∧
    t.trace = s.trace ++ ds.map fun d => .wr (cellAddr s.cfg d.x d.y) d.attr

theorem Draws.trans {s t u : State} {ds es : List Entity} (h : Draws s t ds) (g : Draws t u es) :
    Draws s u (ds ++ es) where
  cfg := g.cfg.trans h.cfg
  program := g.program.trans h.program
  sites := by rw [g.sites, h.sites, h.cfg, List.map_append, List.append_assoc]
  idle hs := by
    obtain ⟨ht, htrace⟩ := h.idle hs
    obtain ⟨hu, hutrace⟩ := g.idle ht
    exact ⟨hu, by rw [hutrace, htrace, h.cfg, List.map_append, List.append_assoc]⟩

/-- The external agent's turn draws nothing (R44). -/
theorem externalTurn_draws_nothing (s : State) : Draws s s.externalTurn [] where
  cfg := rfl
  program := rfl
  sites := by rw [blockSites_externalTurn, List.map_nil, List.append_nil]
  idle h := by rw [externalTurn_idle h]; exact ⟨h, (List.append_nil _).symm⟩

/-- A completed SET_CELL_COLOR of an entity's registers is the draw of that entity (R117). -/
theorem exec_draws {s t : State} {e : Entity} (h : exec (.setCellColor e.x e.y e.attr) s = .next t) :
    Draws s t [e] := by
  have hrest := exec_sameRest h
  obtain ⟨-, -, htrace, -⟩ := exec_writes h rfl
  exact ⟨hrest.cfg, hrest.program, blockSites_of_exec h, fun hs => ⟨hrest.agent.trans hs, htrace⟩⟩

/-- One step of an iteration draws the next entity and goes on, or ends the iteration (R119). -/
theorem step_draws {s : State} {i : Nat} {e : Entity} (hd : s.drawing = some i) (he : s.ents[i]? = some e)
    (ha : validAddr s.cfg (cellAddr s.cfg e.x e.y) = true) :
    ∃ t, step s = .next t ∧ Draws s t [e] ∧ t.ents = s.ents ∧
      (i + 1 < s.ents.length → t.drawing = some (i + 1) ∧ t.pc = s.pc) ∧
      (i + 1 = s.ents.length → t.drawing = none ∧ t.pc = s.pc + 1) := by
  obtain ⟨u, hu, hents, -, hmore, hlast⟩ := driverDrawRepaintsNextEntity s i e hd he ha
  obtain ⟨hcfg, hprogram, hsites, hidle⟩ := (externalTurn_draws_nothing s).trans (exec_draws hu)
  have hi : i + 1 ≤ s.ents.length := (List.getElem?_eq_some_iff.1 he).1
  obtain hi | hi := Nat.lt_or_eq_of_le hi
  · exact ⟨_, hmore hi, ⟨hcfg, hprogram, hsites, hidle⟩, hents, fun _ => ⟨rfl, (exec_sameRest hu).pc⟩, by omega⟩
  · exact ⟨_, hlast hi, ⟨hcfg, hprogram, hsites, hidle⟩, hents, by omega, fun _ => ⟨rfl, rfl⟩⟩

/-- The draws an iteration has left, by induction on the entities after the next one (R119). -/
theorem steps_draw_rest {s : State} {done rest : List Entity} {e : Entity} (hd : s.drawing = some done.length)
    (hents : s.ents = done ++ e :: rest)
    (hvalid : ∀ d ∈ e :: rest, validAddr s.cfg (cellAddr s.cfg d.x d.y) = true) :
    ∃ t, steps (e :: rest).length s = .next t ∧ Draws s t (e :: rest) ∧ t.ents = s.ents ∧ t.pc = s.pc + 1 ∧
      t.drawing = none := by
  induction rest generalizing s done e with
  | nil =>
    obtain ⟨t, ht, hdraws, htents, -, hlast⟩ :=
      step_draws hd (by simp [hents]) (hvalid e List.mem_cons_self)
    obtain ⟨htd, htpc⟩ := hlast (by simp [hents])
    exact ⟨t, steps_succ ht, hdraws, htents, htpc, htd⟩
  | cons d rest ih =>
    obtain ⟨u, hu, hdraws, huents, hmore, -⟩ :=
      step_draws hd (by simp [hents]) (hvalid e List.mem_cons_self)
    obtain ⟨hud, hupc⟩ := hmore (by simp [hents])
    obtain ⟨t, ht, hrest, htents, htpc, htd⟩ := ih (s := u) (done := done ++ [e]) (e := d)
      (by simpa using hud) (by simp [huents, hents])
      (hdraws.cfg ▸ fun c hc => hvalid c (List.mem_cons_of_mem e hc))
    exact ⟨t, (steps_succ hu).trans ht, hdraws.trans hrest, htents.trans huents, by rw [htpc, hupc], htd⟩

/-- The first step of an iteration moves the first entity and draws nothing (R118, R119). -/
theorem step_driverIteration {s : State} {e : Entity} {es : List Entity} (hd : s.drawing = none)
    (hr : s.program[s.pc]? = some .driverIteration) (he : s.ents = e :: es) (hy : e.y.toNat < 24) :
    ∃ t, step s = .next t ∧ Draws s t [] ∧ t.ents = { e with y := nextRow e.y } :: es ∧ t.pc = s.pc ∧
      t.drawing = some 0 := by
  obtain ⟨hcfg, hprogram, hsites, hidle⟩ := externalTurn_draws_nothing s
  exact ⟨_, (step_of_item hd hr).trans (driverUpdate_inRange he hy), ⟨hcfg, hprogram, hsites, hidle⟩, rfl, rfl, rfl⟩

/-- Settles O44: the update comes first, and the draws of all entities are left. -/
theorem driverIterationDrawsAllEntities : Obligations.DriverIterationDrawsAllEntities := by
  intro s e es hd hr he hy hvalid
  obtain ⟨u, hu, hupdate, huents, hupc, hud⟩ := step_driverIteration hd hr he hy
  obtain ⟨t, ht, hrest, htents, htpc, htd⟩ := steps_draw_rest (done := []) hud huents
    (hupdate.cfg ▸ List.forall_mem_map.1 hvalid)
  obtain ⟨hcfg, hprogram, hsites, hidle⟩ := hupdate.trans hrest
  refine ⟨t, ?_, htents.trans huents, by rw [htpc, hupc], htd, hcfg, hprogram, hsites, fun hs => (hidle hs).2⟩
  rw [steps_succ hu, he]
  exact ht

end Sys2Proof.Machine
end

section
/-! The outcomes of an operation (R130, R134, R135): it completes or is refused, exactly where a "refuse" cause
applies, and a refusal marks every cause. -/
namespace Sys2Proof.Machine

/-- A Color operand that is no Color is a cause of its operation (R83, R103). -/
theorem color_mem_causesOf {cfg : Config} {i : Instr} {c : Nat} (hc : c ∈ colorOperands i) (h : 7 < c) :
    .color c ∈ causesOf cfg i := by
  have hcause : Violation.color c ∈ colorCause c := mem_colorCause.2 ⟨h, rfl⟩
  cases i with
  | attrEncode ink paper =>
    obtain rfl | hpaper := List.mem_cons.1 hc
    · exact List.mem_append_left _ hcause
    · obtain rfl := List.mem_singleton.1 hpaper
      exact List.mem_append_right _ hcause
  | setBorder =>
    obtain rfl := List.mem_singleton.1 hc
    exact List.mem_append_left _ (List.mem_append_left _ hcause)
  | regRead | regWrite | attrDecode | portDecode | portPoll | cellAddress | setCellColor => cases hc

/-- An operation that is not allowed has a Color operand or an access that refuses it (R134). -/
theorem exists_refusing_cause {cfg : Config} {i : Instr} (h : ¬ Allowed cfg i) :
    ∃ v ∈ causesOf cfg i, v.refuses = true := by
  by_cases hcolors : ∀ c ∈ colorOperands i, c ≤ 7
  · have haddr : ¬ ∀ site, accessOf cfg i = some site → validAddr cfg site.addr = true :=
      fun haddr => h ⟨hcolors, haddr⟩
    push Not at haddr
    obtain ⟨site, hsite, hinvalid⟩ := haddr
    exact ⟨_, addr_mem_causesOf hsite (Bool.eq_false_iff.2 hinvalid), rfl⟩
  · push Not at hcolors
    obtain ⟨c, hc, hwide⟩ := hcolors
    exact ⟨_, color_mem_causesOf hc hwide, rfl⟩

/-- A refused operation marks all its causes, and nothing else (R135). -/
theorem exec_refused_marks {i : Instr} {s : State} {v : Violation} (hv : v ∈ causesOf s.cfg i)
    (hr : v.refuses = true) :
    ∃ marks, exec i s = .refused (.violated marks) ∧ ∀ u, u ∈ marks ↔ u ∈ s.viol ∨ u ∈ causesOf s.cfg i :=
  ⟨_, exec_refused hv hr, fun _ => mem_addMarks⟩

/-- Settles O6: no cause of an allowed operation refuses it, any other has one that does, and `causesOf` holds
every `V_COLOR` and `V_ADDR` that applies. -/
theorem operationsCompleteOrRefuse : Obligations.OperationsCompleteOrRefuse := by
  refine fun i s => ⟨exec_completes_of_allowed, fun h => ?_⟩
  obtain ⟨v, hv, hr⟩ := exists_refusing_cause h
  obtain ⟨marks, hexec, hmarks⟩ := exec_refused_marks hv hr
  exact ⟨marks, hexec, fun u hu => (hmarks u).2 (.inl hu),
    fun c hc hwide => (hmarks _).2 (.inr (color_mem_causesOf hc hwide)),
    fun site hsite hinvalid => (hmarks _).2 (.inr (addr_mem_causesOf hsite hinvalid))⟩

theorem cellInRange_eq_false_iff {x y : Coord} : cellInRange x y = false ↔ ¬ (x.toNat ≤ 31 ∧ y.toNat ≤ 23) := by
  rw [← cellInRange_iff, Bool.not_eq_true]

/-- A Color operand or a border address that refuses SET_BORDER is among its causes (R103). -/
theorem setBorder_refusing_cause {cfg : Config} {c : Nat} (h : 7 < c ∨ validAddr cfg cfg.borderAddr = false) :
    ∃ v ∈ causesOf cfg (.setBorder c), v.refuses = true := by
  obtain hwide | hinvalid := h
  · exact ⟨_, color_mem_causesOf List.mem_cons_self hwide, rfl⟩
  · exact ⟨_, addr_mem_causesOf (i := .setBorder c) rfl hinvalid, rfl⟩

/-- Settles O36: one of the causes refuses, and the marks added are `causesOf` of the operation. -/
theorem allCausesAreMarked : Obligations.AllCausesAreMarked := by
  refine fun s x y attr c => ⟨fun hinvalid => ?_, fun h => ?_, fun hinvalid => ?_⟩
  · obtain ⟨marks, hexec, hmarks⟩ :=
      exec_refused_marks (addr_mem_causesOf (i := .setCellColor x y attr) rfl hinvalid) rfl
    refine ⟨marks, hexec, fun v => ?_⟩
    rw [hmarks, causesOf, List.mem_append, mem_cellCause, mem_addrCause, cellInRange_eq_false_iff]
    simp only [hinvalid, true_and]
  · obtain ⟨v, hv, hr⟩ := setBorder_refusing_cause h
    obtain ⟨marks, hexec, hmarks⟩ := exec_refused_marks hv hr
    refine ⟨marks, hexec, fun v => ?_⟩
    rw [hmarks, causesOf, List.mem_append, List.mem_append, mem_colorCause, mem_unresolvedCause, mem_addrCause,
      or_assoc]
  · obtain ⟨marks, hexec, hmarks⟩ := exec_refused_marks (addr_mem_causesOf (i := .portPoll) rfl hinvalid) rfl
    refine ⟨marks, hexec, fun v => ?_⟩
    rw [hmarks, causesOf, List.mem_append, mem_unresolvedCause, mem_addrCause]
    simp only [hinvalid, true_and]

end Sys2Proof.Machine
end

section
/-! The set `viol` over a step, and that no operation reads it (R133, R134). -/
namespace Sys2Proof.Machine

/-- A run goes on from `V_CELL` and `V_UNRESOLVED` only: the column `treatment` of R134. -/
theorem refuses_eq_false_iff {v : Violation} :
    v.refuses = false ↔ (∃ x y, v = .cell x y) ∨ ∃ a, v = .unresolved a := by
  cases v <;> simp [Violation.refuses]

/-- No mark is removed, and every new one is a mark a run goes on with (R133, R134). -/
structure MarksGrow (before after : List Violation) : Prop where
  sticky : ∀ v ∈ before, v ∈ after
  new : ∀ v ∈ after, v ∈ before ∨ v.refuses = false

theorem MarksGrow.refl (marks : List Violation) : MarksGrow marks marks where
  sticky _ := id
  new _ := .inl

/-- A completed operation has no cause that refuses. -/
theorem exec_marksGrow {i : Instr} {s t : State} (h : exec i s = .next t) : MarksGrow s.viol t.viol where
  sticky := viol_subset_of_exec h
  new v hv := by
    obtain ⟨hc, -⟩ := exec_next_iff.1 h
    rw [exec_viol h, mem_addMarks] at hv
    exact hv.imp_right (hc v)

/-- In a step of the requester only an operation of the block marks anything. -/
theorem requesterStep_marksGrow {s t : State} (h : requesterStep s = .next t) : MarksGrow s.viol t.viol := by
  obtain rfl | ⟨target, rfl⟩ | ⟨e, es, -, -, rfl⟩ | ⟨i, u, hu, pc, drawing, names, rfl, -⟩ :=
    requesterStep_cases h
  case inr.inr.inr => exact exec_marksGrow (t := u) hu
  all_goals exact MarksGrow.refl _

/-- Settles O52: the external agent's turn leaves the marks, and the requester's step lets them grow. -/
theorem marksAreSticky : Obligations.MarksAreSticky := by
  intro s t h
  have hgrow := requesterStep_marksGrow (s := s.externalTurn) h
  exact ⟨hgrow.sticky, fun v hv => (hgrow.new v hv).imp_right refuses_eq_false_iff.1⟩

/-- No access depends on the marks or changes them (R133). -/
theorem accessed_with_viol (s : State) (marks : List Violation) (i : Instr) :
    accessed { s with viol := marks } i = { accessed s i with viol := marks } := by
  cases i <;> rfl

/-- Settles O53: causes, access and response depend on the rest of the state only. -/
theorem marksDoNotInfluence : Obligations.MarksDoNotInfluence := by
  intro i s t marks h
  obtain ⟨hc, rfl⟩ := exec_next_iff.1 h
  refine ⟨addMarks marks (causesOf s.cfg i), exec_next_iff.2 ⟨hc, ?_⟩⟩
  have hresult : resultOf { s with viol := marks } i = resultOf s i := resultOf_congr rfl fun _ _ => ⟨rfl, rfl⟩
  simp only [State.violate, State.respond, accessed_with_viol, hresult]

end Sys2Proof.Machine
end

section
/-! The end of the operation list (R15, R157). -/
namespace Sys2Proof.Machine

/-- With no iteration in progress and no item at `pc`, only the external agent acts in a step (R157). -/
theorem step_of_no_item {s : State} (hd : s.drawing = none) (hr : s.program[s.pc]? = none) :
    step s = .next s.externalTurn := by
  simp [step_def, requesterStep, hd, hr]

/-- Settles O5: from the end of the list on there is no item at `pc`. -/
theorem endedRunStays : Obligations.EndedRunStays := by
  intro s hd hend
  have hr : s.program[s.pc]? = none := List.getElem?_eq_none hend
  exact step_of_no_item hd hr

end Sys2Proof.Machine
end
